-- ==== Sys2Proof/Word.lean ====
section
/-! DEFINITION. The engine's value types (spec/00_scope.md R8, R11): bytes, nibbles, the 32-bit
cursors and the control-flag table of 9 bytes. -/

namespace Sys2Proof

/-- A byte of the payload, the output or a control-flag entry (R11). -/
abbrev Byte := BitVec 8

/-- A nibble, half a byte (R11). -/
abbrev Nibble := BitVec 4

/-- A cursor or a register of the CSR window (R8, R35). -/
abbrev Word := BitVec 32

/-- The control-flag table `T[0]` .. `T[8]` (R26). -/
abbrev Table := Vector Byte 9

end Sys2Proof
end

