-- ==== Sys2Proof/Config.lean ====
section
/-! DEFINITION. The parameters of spec/00_scope.md R8 and the free values of
spec/70_reset_and_hazards.md R231. -/

namespace Sys2Proof

/-- `NIBBLE_ORDER`, the order of the two nibbles inside each output byte of PAT1 .. PAT8
(R8, R160). -/
inductive NibbleOrder where
  /-- The first-named nibble is bits [7:4] (the spec's default). -/
  | highFirst
  /-- The first-named nibble is bits [3:0]. -/
  | lowFirst
deriving DecidableEq, Repr

/-- The implementation parameters the model takes as arguments (R8). -/
structure Params where
  /-- `IN_CAP`, the size in bytes of the input memory. -/
  inCap : Nat
  /-- `OUT_CAP`, the size in bytes of the output memory. -/
  outCap : Nat
  /-- `NIBBLE_ORDER`. -/
  nibbleOrder : NibbleOrder
deriving DecidableEq, Repr

/-- The range R8 gives `IN_CAP` and `OUT_CAP`: 1 to 2^32 - 1. -/
abbrev Params.valid (p : Params) : Prop :=
  (1 ≤ p.inCap ∧ p.inCap ≤ 2 ^ 32 - 1) ∧ (1 ≤ p.outCap ∧ p.outCap ≤ 2 ^ 32 - 1)

/-- The parameters of the machine that `Machine.State.reset` describes. DESIGN CHOICE (log entry 1,
unsafe): `IN_CAP` is R9's size that takes every frame's payload, `OUT_CAP` is R10's nine times it,
and `NIBBLE_ORDER` is the spec's default. No statement rests on the two capacities. -/
def Config.params : Params := ⟨65515, 589635, .highFirst⟩

/-- FREE VALUE (R231, U1, log entry 2): what byte `a` of engine `k`'s `IN` holds after its reset
numbered `draw`, until the host writes it. Nothing constrains it, and nothing relates the engines of
a platform (R67, R221). -/
opaque Config.freeInByte : (k : Nat) → (draw : Nat) → (a : Nat) → Byte

/-- FREE VALUE (R231, R232, U1, U8, log entry 2): what byte `a` of engine `k`'s `OUT` holds after
its reset numbered `draw`, until it is written. Nothing constrains it, and nothing relates the
engines of a platform (R67, R221). -/
opaque Config.freeOutByte : (k : Nat) → (draw : Nat) → (a : Nat) → Byte

end Sys2Proof
end

