-- ==== Sys2Proof/Syntax.lean ====
section
/-! DEFINITION. The units of the PX token stream, one constructor per row of
spec/opcode_table.json (spec/30_encoding.md R71, R75). -/

namespace Sys2Proof

/-- A command byte or one unit of the token stream with its fields as R71 lays them out. Which of
them a byte is depends on `mask`, `cmd` and the control-flag table, not on fixed bits (R72). -/
inductive Instr where
  /-- CMD: a command byte `c` (R112). -/
  | cmd (c : Byte)
  /-- LIT: a literal byte `d` (R131). -/
  | lit (d : Byte)
  /-- PAT0: the duplicate-nibble pattern, kind nibble `h`, parameter `l` (R143). -/
  | pat0 (h l : Nibble)
  /-- PAT1 (R151). -/
  | pat1 (h l : Nibble)
  /-- PAT2 (R152). -/
  | pat2 (h l : Nibble)
  /-- PAT3 (R153). -/
  | pat3 (h l : Nibble)
  /-- PAT4 (R154). -/
  | pat4 (h l : Nibble)
  /-- PAT5 (R155). -/
  | pat5 (h l : Nibble)
  /-- PAT6 (R156). -/
  | pat6 (h l : Nibble)
  /-- PAT7 (R157). -/
  | pat7 (h l : Nibble)
  /-- PAT8 (R158). -/
  | pat8 (h l : Nibble)
  /-- BREF: a back-reference, length nibble `h`, distance high nibble `l`, distance low byte `o`
  (R178). -/
  | bref (h l : Nibble) (o : Byte)
deriving DecidableEq, Repr

end Sys2Proof
end

