-- ==== Sys2Proof/Machine/Operands.lean ====
section
/-! DEFINITION. Fields and operands of the units: nibbles, the table search, the back-reference
operands, the pattern nibbles and bytes (spec/30_encoding.md R73, R74, spec/43_pattern.md R141 to
R160, spec/44_backref.md R173 to R175). -/

namespace Sys2Proof.Machine

/-- The high nibble `b[7:4]` (R73). -/
def highNibble (b : Byte) : Nibble := b.extractLsb' 4 4

/-- The low nibble `b[3:0]` (R73). -/
def lowNibble (b : Byte) : Nibble := b.extractLsb' 0 4

/-- The byte whose high nibble is `h` and low nibble `l`: `(h << 4) | l`. -/
def packByte (h l : Nibble) : Byte := h ++ l

/-- The indices 0 .. 8 of the control-flag table in the order the search tries them (R141). -/
def flagIndices : List (Fin 9) := [0, 1, 2, 3, 4, 5, 6, 7, 8]

/-- `Lookup(T, h)`: the least index whose whole 8-bit entry equals `h` zero-extended, or none
(R141, R142). -/
def lookup (t : Table) (h : Nibble) : Option (Fin 9) :=
  flagIndices.find? fun i => t[i] == h.setWidth 8

/-- The raw 12-bit offset field `e = (l << 8) | off_lo` (R173). -/
def offsetField (l : Nibble) (o : Byte) : BitVec 12 := l ++ o

/-- The distance `d = 0x1000 - e` (R174). -/
def distance (l : Nibble) (o : Byte) : Nat := 0x1000 - (offsetField l o).toNat

/-- The run length `len = h + 3` (R175). -/
def runLength (h : Nibble) : Nat := h.toNat + 3

/-- What the next payload byte is, by `mask` and the current command bit (R111, R113). -/
inductive Slot where
  /-- `mask = 0`: a command byte. -/
  | command
  /-- The command bit is 1: a literal. -/
  | literal
  /-- The command bit is 0: a token. -/
  | token
deriving DecidableEq, Repr

/-- The slot that `cmd` and `mask` select (R111, R113). -/
def selectSlot (cmd mask : Byte) : Slot :=
  if mask = 0 then .command else if cmd &&& mask ≠ 0 then .literal else .token

/-- The base of pattern `idx` before the adjustment (R150). -/
def patternBase (idx : Nat) (l : Nibble) : Int :=
  if idx = 1 then (l.toNat : Int) + 1 else if idx = 5 then (l.toNat : Int) - 1 else l.toNat

/-- What pattern `idx` adds to the nibble at position `j`: -1 at `idx - 1` for 1 .. 4, +1 at
`idx - 5` for 5 .. 8, else 0 (R150). -/
def patternAdjust (idx j : Nat) : Int :=
  if 1 ≤ idx ∧ idx ≤ 4 then (if j = idx - 1 then -1 else 0) else (if j = idx - 5 then 1 else 0)

/-- Nibble `j` of pattern `idx` in 1 .. 8, reduced modulo 16 (R150, R159). -/
def patternNibble (idx : Nat) (l : Nibble) (j : Nat) : Nibble :=
  BitVec.ofInt 4 (patternBase idx l + patternAdjust idx j)

/-- Two nibbles, first-named first, packed into an output byte under `NIBBLE_ORDER` (R160). -/
def packNibbles (order : NibbleOrder) (first second : Nibble) : Byte :=
  match order with
  | .highFirst => packByte first second
  | .lowFirst => packByte second first

/-- The two output bytes of pattern `idx` in 1 .. 8 (R150, R160). -/
def arithBytes (order : NibbleOrder) (idx : Nat) (l : Nibble) : List Byte :=
  [packNibbles order (patternNibble idx l 0) (patternNibble idx l 1),
   packNibbles order (patternNibble idx l 2) (patternNibble idx l 3)]

/-- The two output bytes of the duplicate-nibble pattern (R143). -/
def dupBytes (l : Nibble) : List Byte := [packByte l l, packByte l l]

end Sys2Proof.Machine
end

