-- ==== Sys2Proof/WellFormed.lean ====
section
/-! DEFINITION. Which terms of `Instr` a table can select (spec/30_encoding.md R71, R75): a pattern
of kind k needs a kind nibble whose first match in the table is k, a back-reference one that the
table does not hold. -/

namespace Sys2Proof

/-- The selection rule of R75 for one unit under the table `t`. A command byte and a literal are
well formed under every table (R76). -/
abbrev Instr.WellFormed (t : Table) (i : Instr) : Prop :=
  match i with
  | .cmd _ => True
  | .lit _ => True
  | .pat0 h _ => Machine.lookup t h = some 0
  | .pat1 h _ => Machine.lookup t h = some 1
  | .pat2 h _ => Machine.lookup t h = some 2
  | .pat3 h _ => Machine.lookup t h = some 3
  | .pat4 h _ => Machine.lookup t h = some 4
  | .pat5 h _ => Machine.lookup t h = some 5
  | .pat6 h _ => Machine.lookup t h = some 6
  | .pat7 h _ => Machine.lookup t h = some 7
  | .pat8 h _ => Machine.lookup t h = some 8
  | .bref h _ _ => Machine.lookup t h = none

/-- The slot a unit stands in (R75). -/
def Instr.slot : Instr → Machine.Slot
  | .cmd _ => .command
  | .lit _ => .literal
  | .pat0 _ _ => .token
  | .pat1 _ _ => .token
  | .pat2 _ _ => .token
  | .pat3 _ _ => .token
  | .pat4 _ _ => .token
  | .pat5 _ _ => .token
  | .pat6 _ _ => .token
  | .pat7 _ _ => .token
  | .pat8 _ _ => .token
  | .bref _ _ _ => .token

end Sys2Proof
end

