-- ==== Sys2Proof/Decode.lean ====
section
/-! DEFINITION. Decoding and encoding of the token stream (spec/30_encoding.md R70 to R78). What a
byte is depends on the slot and on the control-flag table, so both are arguments of the decoder. -/

namespace Sys2Proof

open Machine (Slot lookup highNibble lowNibble packByte)

/-- Why no unit can be read from the bytes at hand. The bytes themselves are never illegal (R76). -/
inductive DecodeStop where
  /-- No byte is left: the end of the payload (R114). -/
  | noByte
  /-- A back-reference token byte with no byte after it (R176); its two nibbles. -/
  | truncatedBackref (h l : Nibble)
deriving DecidableEq, Repr

/-- The pattern unit of kind `k` (R71, R75). -/
def patternInstr (k : Fin 9) (h l : Nibble) : Instr :=
  match k with
  | 0 => .pat0 h l
  | 1 => .pat1 h l
  | 2 => .pat2 h l
  | 3 => .pat3 h l
  | 4 => .pat4 h l
  | 5 => .pat5 h l
  | 6 => .pat6 h l
  | 7 => .pat7 h l
  | 8 => .pat8 h l

/-- A token unit from its first byte and the bytes after it (R140, R170). -/
def decodeToken (t : Table) (b : Byte) (rest : List Byte) : Except DecodeStop (Instr × List Byte) :=
  match lookup t (highNibble b) with
  | some k => .ok (patternInstr k (highNibble b) (lowNibble b), rest)
  | none =>
    match rest with
    | [] => .error (.truncatedBackref (highNibble b) (lowNibble b))
    | o :: rest' => .ok (.bref (highNibble b) (lowNibble b) o, rest')

/-- The first unit of `bytes` in slot `slot` under the table `t`, with the bytes after it
(R71, R75). -/
def decode (slot : Slot) (t : Table) (bytes : List Byte) : Except DecodeStop (Instr × List Byte) :=
  match bytes with
  | [] => .error .noByte
  | b :: rest =>
    match slot with
    | .command => .ok (.cmd b, rest)
    | .literal => .ok (.lit b, rest)
    | .token => decodeToken t b rest

/-- The bytes of a unit (R71). -/
def encode : Instr → List Byte
  | .cmd c => [c]
  | .lit d => [d]
  | .pat0 h l => [packByte h l]
  | .pat1 h l => [packByte h l]
  | .pat2 h l => [packByte h l]
  | .pat3 h l => [packByte h l]
  | .pat4 h l => [packByte h l]
  | .pat5 h l => [packByte h l]
  | .pat6 h l => [packByte h l]
  | .pat7 h l => [packByte h l]
  | .pat8 h l => [packByte h l]
  | .bref h l o => [packByte h l, o]

/-- The bytes of an instruction word of `nbits` bits numbered as spec/opcode_table.json numbers
them: the first byte is bits [7:0], a second byte is bits [15:8]. -/
def wordBytes (nbits w : Nat) : List Byte :=
  if nbits ≤ 8 then [BitVec.ofNat 8 w] else [BitVec.ofNat 8 w, BitVec.ofNat 8 (w / 256)]

/-- A table none of whose entries matches a nibble (R142), so that every token is a
back-reference. -/
def noMatchTable : Table := Vector.replicate 9 0xFF#8

/-- DESIGN CHOICE (log entry 9): a table word carries no selection bits, so the slot it is read in
is fixed by its length: a one-byte word is read where the machine stands after reset (`mask` = 0, a
command byte), a two-byte word where the only two-byte format, BREF, is selected. -/
def wordSlot (nbits : Nat) : Slot := if nbits ≤ 8 then .command else .token

/-- What the decoder reads from a table word (log entry 9). -/
def decodeTableWord (nbits w : Nat) : Option Instr :=
  match decode (wordSlot nbits) noMatchTable (wordBytes nbits w) with
  | .ok (i, _) => some i
  | .error _ => none

end Sys2Proof
end

