-- ==== Sys2Proof/Machine/State.lean ====
section
/-! DEFINITION. The state of one engine instance (spec/10_state.md R20 to R34, spec/20_memory.md
R50), the host's moves, and the state after reset (spec/70_reset_and_hazards.md R230). -/

namespace Sys2Proof.Machine

/-- `phase` (R27). -/
inductive Phase where
  /-- No run in progress. -/
  | idle
  /-- A run is in progress: the engine steps. -/
  | run
  /-- The run ended at the end of the payload. -/
  | done
  /-- The run stopped at a fault. -/
  | fault
deriving DecidableEq, Repr

/-- `cause` (R28, R200). The reserved codes 5 to 15 are never produced, so they are no value. -/
inductive Cause where
  /-- NONE: no fault in this run. -/
  | none
  /-- BACKREF_UNDERFLOW: a distance greater than `op` (R177, R201). -/
  | backrefUnderflow
  /-- TRUNCATED_BACKREF: the token byte is the last payload byte (R176, R202). -/
  | truncatedBackref
  /-- OUTPUT_OVERFLOW: the unit's output would pass `OUT_CAP` (R203). -/
  | outputOverflow
  /-- BAD_IN_LEN: START with `N` > `IN_CAP` (R204). -/
  | badInLen
deriving DecidableEq, Repr

/-- One access of the host: to the CSR window, to a memory, or the reset (R35, R50, R230). -/
inductive HostAccess where
  /-- Write the word `w` at offset `off` of the CSR window with an access of `width` bytes. -/
  | csrWrite (width off : Nat) (w : Word)
  /-- Read offset `off` of the CSR window with an access of `width` bytes. -/
  | csrRead (width off : Nat)
  /-- Write byte `a` of `IN`. -/
  | inWrite (a : Nat) (b : Byte)
  /-- Read byte `a` of `IN`. -/
  | inRead (a : Nat)
  /-- Write byte `a` of `OUT`. -/
  | outWrite (a : Nat) (b : Byte)
  /-- Read byte `a` of `OUT`. -/
  | outRead (a : Nat)
  /-- Reset the engine. -/
  | reset
deriving DecidableEq, Repr

/-- One entry of the host's script (log entry 4). -/
inductive HostMove where
  /-- The host makes an access before the engine's next step. -/
  | access (a : HostAccess)
  /-- The host lets the engine take one step. -/
  | letStep
  /-- The host waits until `phase` is not RUN (polling or the interrupt, R212). -/
  | awaitEnd
deriving DecidableEq, Repr

/-- A memory: the bytes written since reset, by rising address. An unlisted address holds no written
byte; what reading it gives is `inByte` and `outByte` (log entries 2, 3). -/
abbrev Memory := List Host.Cell

/-- The state of one engine instance (R20), and six fields of the model's own. -/
structure State where
  /-- The input cursor (R22). -/
  ip : Word
  /-- The output count (R23). -/
  op : Word
  /-- The current command byte (R24). -/
  cmd : Byte
  /-- The current command-bit selector (R25). -/
  mask : Byte
  /-- The control-flag table, FLAG0 .. FLAG8 (R26, R47). -/
  flags : Table
  /-- `N`, the payload length, IN_LEN (R31, R42). -/
  inLen : Word
  /-- EXP_LEN, the expected output length (R32, R45). -/
  expLen : Word
  /-- `phase` (R27). -/
  phase : Phase
  /-- `cause` (R28). -/
  cause : Cause
  /-- `fault_ip` (R29). -/
  faultIp : Word
  /-- `len_match` (R30). -/
  lenMatch : Bool
  /-- `irq_en` (R33). -/
  irqEn : Bool
  /-- `IN`, the input memory (R50). -/
  inMem : Memory
  /-- `OUT`, the output memory (R50). -/
  outMem : Memory
  /-- The model's own: the parameters of R8, which no step writes (log entry 1). -/
  cfg : Params
  /-- The model's own: the number of resets taken, which keeps the free bytes of R231 fresh (log
  entry 2). -/
  draws : Nat
  /-- The model's own: the host's moves still to come (log entry 4). -/
  hostMoves : List HostMove
  /-- The model's own: what the host's last read returned (log entry 4). -/
  hostData : Word
  /-- The model's own: whether the host has seen `phase` DONE or FAULT since the last run began
  (R62, R243, log entry 17). -/
  endSeen : Bool
  /-- The model's own: which engine of the platform this is. Only the free bytes of R231 depend on
  it (log entries 2, 12). -/
  engineId : Nat
deriving DecidableEq, Repr

/-- Why the machine stops with a fault. The engine's own faults (R200) are states with `phase` =
FAULT, not these. -/
inductive Fault where
  /-- Raised by a host access whose offset lies outside the CSR window of 0x80 bytes (R50). Safe. -/
  | csrOutsideWindow
  /-- Raised by a host access to a byte of `IN` at or above `IN_CAP` (R50). Safe. -/
  | inputAddress
  /-- Raised by a host access to a byte of `OUT` at or above `OUT_CAP` (R50). Safe. -/
  | outputAddress
  /-- Raised by a fetch when `ip` is beyond `N` or `N` beyond `IN_CAP` while `phase` = RUN, in
  states no run reaches (R22, R51, log entry 8). Safe. -/
  | payloadOutsideInput
deriving DecidableEq, Repr

/-- Why a move has no meaning. -/
inductive Refusal where
  /-- Raised by an arm of `exec` whose instruction has no meaning yet. Safe. -/
  | notModelled (mnemonic : String)
  /-- Raised by a host access to the CSR window that is not an aligned 32-bit one (R58, R244, U5).
  Safe in the model; the spec counts on the host never to make one. -/
  | csrAccessForm
  /-- Raised by a host access to `IN` or `OUT` while `phase` = RUN (R241, U3). Safe in the model;
  the spec counts on the host never to make one. -/
  | memoryAccessInRun
  /-- Raised by a host read of `OUT` at or above OUT_LEN (R243). Safe in the model; the spec counts
  on the host never to make one. -/
  | outputReadBeyondLength
  /-- Raised by a host read of `OUT` before the host has seen `phase` DONE or FAULT (R62, R243).
  Safe in the model; the spec counts on the host never to make one. -/
  | outputReadBeforeEnd
deriving DecidableEq, Repr

/-- The state of engine `k` with parameters `p` after its reset numbered `draw` (R230): every
register at its reset value, nothing written in `IN` and `OUT` (R231), no host move to come. -/
def State.resetWith (p : Params) (k draw : Nat) : State where
  ip := 0
  op := 0
  cmd := 0
  mask := 0
  flags := Vector.replicate 9 0
  inLen := 0
  expLen := 0
  phase := .idle
  cause := .none
  faultIp := 0
  lenMatch := false
  irqEn := false
  inMem := []
  outMem := []
  cfg := p
  draws := draw
  hostMoves := []
  hostData := 0
  endSeen := false
  engineId := k

/-- The machine right after reset (R230), with the parameters of log entry 1. -/
def State.reset : State := State.resetWith Config.params 0 0

end Sys2Proof.Machine
end

