-- ==== Sys2Proof/Machine/Flags.lean ====
section
/-! DEFINITION. The engine has no condition codes (spec/10_state.md R34). Its status bits: the phase
and cause codes (R27, R200), the length report (R30), the interrupt level (R210) and the STATUS
word (R39). -/

namespace Sys2Proof.Machine

/-- The encoding of `phase` in STATUS.PHASE (R27). -/
def phaseCode : Phase → BitVec 2
  | .idle => 0
  | .run => 1
  | .done => 2
  | .fault => 3

/-- The encoding of `cause` in CAUSE[3:0] (R200). -/
def causeCode : Cause → BitVec 4
  | .none => 0
  | .backrefUnderflow => 1
  | .truncatedBackref => 2
  | .outputOverflow => 3
  | .badInLen => 4

/-- Whether a run has ended: `phase` is DONE or FAULT. -/
def Phase.ended : Phase → Bool
  | .idle => false
  | .run => false
  | .done => true
  | .fault => true

/-- The report set on entry to DONE: 1 when `op` = EXP_LEN (R30). -/
def lengthMatches (s : State) : Bool := s.op == s.expLen

/-- The level of the interrupt output: `irq_en` and `phase` DONE or FAULT (R210). -/
def irqLevel (s : State) : Bool := s.irqEn && s.phase.ended

/-- A bit as a word. -/
def bitWord (b : Bool) : Word := if b then 1 else 0

/-- The STATUS word: PHASE in [1:0], LEN_MATCH in [2], IRQ in [3] (R39). -/
def statusWord (s : State) : Word :=
  (phaseCode s.phase).setWidth 32 ||| (bitWord s.lenMatch <<< 2) ||| (bitWord (irqLevel s) <<< 3)

end Sys2Proof.Machine
end

