-- ==== Sys2Proof/Machine/Ops.lean ====
section
/-! DEFINITION. The named operations over the memories and the working registers: reading and
writing a memory, appending to the output, the byte-serial copy, completing a unit, fault entry and
what leaves it (spec/20_memory.md R51, R52, R61, spec/44_backref.md R178, spec/60_exceptions.md
R206, R208). -/

namespace Sys2Proof.Machine

/-- The byte written at address `a`, if any. -/
def Memory.read (m : Memory) (a : Nat) : Option Byte :=
  match m with
  | [] => none
  | (x, v) :: r => if x = a then some v else Memory.read r a

/-- Write byte `b` at address `a`, keeping the addresses strictly rising. -/
def Memory.write (m : Memory) (a : Nat) (b : Byte) : Memory :=
  match m with
  | [] => [(a, b)]
  | (x, v) :: r =>
    if a < x then (a, b) :: (x, v) :: r
    else if a = x then (a, b) :: r
    else (x, v) :: Memory.write r a b

/-- The canonical form: addresses strictly rising, hence no repeats. No entry can equal what an
unlisted address holds, since that is no written byte (log entry 3). -/
abbrev Memory.wf (m : Memory) : Prop := (m.map Prod.fst).Pairwise (· < ·)

/-- `IN[a]`: the byte written there, or the free byte of the last reset (R231). -/
def inByte (s : State) (a : Nat) : Byte :=
  (Memory.read s.inMem a).getD (Config.freeInByte s.engineId s.draws a)

/-- `OUT[a]`: the byte written there, or the free byte of the last reset (R231). -/
def outByte (s : State) (a : Nat) : Byte :=
  (Memory.read s.outMem a).getD (Config.freeOutByte s.engineId s.draws a)

/-- The output bytes `OUT[0 .. op-1]` (R44). -/
def outputBytes (s : State) : List Byte := (List.range s.op.toNat).map (outByte s)

/-- `OUT[op] <- b; op <- op + 1` (R52). -/
def appendByte (b : Byte) (s : State) : State :=
  { s with outMem := Memory.write s.outMem s.op.toNat b, op := s.op + 1 }

/-- Append the bytes in order (R52). -/
def appendBytes (bs : List Byte) (s : State) : State :=
  match bs with
  | [] => s
  | b :: rest => appendBytes rest (appendByte b s)

/-- The copy loop of R178, `n` iterations at distance `d`: each byte is read after the ones before
it were written (R13, R237). -/
def copyBack (d n : Nat) (s : State) : State :=
  match n with
  | 0 => s
  | n + 1 => copyBack d n (appendByte (outByte s (s.op.toNat - d)) s)

/-- A unit of `n` payload bytes completes: `ip <- ip + n; mask <- mask >> 1` (R22, R113). -/
def completeUnit (n : Nat) (s : State) : State :=
  { s with ip := s.ip + BitVec.ofNat 32 n, mask := s.mask >>> 1 }

/-- Fault entry (R206): `fault_ip <- ip; cause <- code; phase <- FAULT`, and nothing else. -/
def enterFault (c : Cause) (s : State) : State :=
  { s with faultIp := s.ip, cause := c, phase := .fault }

/-- Acknowledging a finished run: `phase <- IDLE` from DONE and FAULT (R37). It resumes nothing
(R208). -/
def acknowledge (s : State) : State :=
  if s.phase.ended then { s with phase := .idle } else s

/-- A unit of one payload byte that appends `bs`: OUTPUT_OVERFLOW before any write if they do not
all fit (R203), else append and complete. -/
def emitUnit (bs : List Byte) (s : State) : State :=
  if s.cfg.outCap < s.op.toNat + bs.length then enterFault .outputOverflow s
  else completeUnit 1 (appendBytes bs s)

end Sys2Proof.Machine
end

