-- ==== Sys2Proof/Machine/Backref.lean ====
section
/-! DEFINITION. The back-reference family: BREF (spec/44_backref.md R170 to R180). -/

namespace Sys2Proof.Machine

/-- The checks of a back-reference in their order, and the copy (R176, R177, R203, R207, R178). -/
def copyUnit (len d : Nat) (s : State) : State :=
  if s.inLen.toNat ≤ s.ip.toNat + 1 then enterFault .truncatedBackref s
  else if s.op.toNat < d then enterFault .backrefUnderflow s
  else if s.cfg.outCap < s.op.toNat + len then enterFault .outputOverflow s
  else completeUnit 2 (copyBack d len s)

/-- BREF (R178). -/
def execBref (h l : Nibble) (o : Byte) (s : State) : Host.Outcome State Fault Refusal :=
  .next (copyUnit (runLength h) (distance l o) s)

end Sys2Proof.Machine
end

