-- ==== Sys2Proof/Machine/Command.lean ====
section
/-! DEFINITION. The command-byte family: CMD (spec/41_command.md R112). -/

namespace Sys2Proof.Machine

/-- CMD (R112): `cmd <- c; ip <- ip + 1; mask <- 0x80`. -/
def execCmd (c : Byte) (s : State) : Host.Outcome State Fault Refusal :=
  .next { s with cmd := c, ip := s.ip + 1, mask := 0x80 }

end Sys2Proof.Machine
end

