-- ==== Sys2Proof/Machine/Literal.lean ====
section
/-! DEFINITION. The literal family: LIT (spec/42_literal.md R131). -/

namespace Sys2Proof.Machine

/-- LIT (R131): append the literal byte. -/
def execLit (d : Byte) (s : State) : Host.Outcome State Fault Refusal := .next (emitUnit [d] s)

end Sys2Proof.Machine
end

