-- ==== Sys2Proof/Machine/Pattern.lean ====
section
/-! DEFINITION. The nibble-pattern family: PAT0 .. PAT8 (spec/43_pattern.md R143, R150 to R160).
The kind nibble `h` only selects the unit, so no meaning takes it (log entry 11). -/

namespace Sys2Proof.Machine

/-- The special nibble-arithmetic pattern of kind `idx` (R150). -/
def emitPattern (idx : Nat) (l : Nibble) (s : State) : State :=
  emitUnit (arithBytes s.cfg.nibbleOrder idx l) s

/-- PAT0 (R143). -/
def execPat0 (l : Nibble) (s : State) : Host.Outcome State Fault Refusal :=
  .next (emitUnit (dupBytes l) s)

/-- PAT1 (R150, R151). -/
def execPat1 (l : Nibble) (s : State) : Host.Outcome State Fault Refusal :=
  .next (emitPattern 1 l s)

/-- PAT2 (R150, R152). -/
def execPat2 (l : Nibble) (s : State) : Host.Outcome State Fault Refusal :=
  .next (emitPattern 2 l s)

/-- PAT3 (R150, R153). -/
def execPat3 (l : Nibble) (s : State) : Host.Outcome State Fault Refusal :=
  .next (emitPattern 3 l s)

/-- PAT4 (R150, R154). -/
def execPat4 (l : Nibble) (s : State) : Host.Outcome State Fault Refusal :=
  .next (emitPattern 4 l s)

/-- PAT5 (R150, R155). -/
def execPat5 (l : Nibble) (s : State) : Host.Outcome State Fault Refusal :=
  .next (emitPattern 5 l s)

/-- PAT6 (R150, R156). -/
def execPat6 (l : Nibble) (s : State) : Host.Outcome State Fault Refusal :=
  .next (emitPattern 6 l s)

/-- PAT7 (R150, R157). -/
def execPat7 (l : Nibble) (s : State) : Host.Outcome State Fault Refusal :=
  .next (emitPattern 7 l s)

/-- PAT8 (R150, R158). -/
def execPat8 (l : Nibble) (s : State) : Host.Outcome State Fault Refusal :=
  .next (emitPattern 8 l s)

end Sys2Proof.Machine
end

