-- ==== Sys2Proof/Machine/Dispatch.lean ====
section
/-! DEFINITION. One arm per row of spec/opcode_table.json, each a direct call of its meaning. -/

namespace Sys2Proof.Machine

def exec (i : Instr) (s : State) : Host.Outcome State Fault Refusal :=
  match i with
  | .cmd c => Sys2Proof.Machine.execCmd c s
  | .lit d => Sys2Proof.Machine.execLit d s
  | .pat0 _ l => Sys2Proof.Machine.execPat0 l s
  | .pat1 _ l => Sys2Proof.Machine.execPat1 l s
  | .pat2 _ l => Sys2Proof.Machine.execPat2 l s
  | .pat3 _ l => Sys2Proof.Machine.execPat3 l s
  | .pat4 _ l => Sys2Proof.Machine.execPat4 l s
  | .pat5 _ l => Sys2Proof.Machine.execPat5 l s
  | .pat6 _ l => Sys2Proof.Machine.execPat6 l s
  | .pat7 _ l => Sys2Proof.Machine.execPat7 l s
  | .pat8 _ l => Sys2Proof.Machine.execPat8 l s
  | .bref h l o => Sys2Proof.Machine.execBref h l o s

end Sys2Proof.Machine
end

