-- ==== Sys2Proof/Machine/RunControl.lean ====
section
/-! DEFINITION. Starting and ending a run (spec/41_command.md R110, R114). -/

namespace Sys2Proof.Machine

/-- The part of START common to both outcomes: the working registers and the report are cleared
(R110). `OUT` is not (R55). The host has seen no end of the new run (log entry 17). -/
def clearRun (s : State) : State :=
  { s with ip := 0, op := 0, cmd := 0, mask := 0, lenMatch := false, faultIp := 0, endSeen := false }

/-- START (R110): refuse with BAD_IN_LEN when `N` > `IN_CAP` (R204), else enter RUN. -/
def startRun (s : State) : State :=
  if s.cfg.inCap < s.inLen.toNat then enterFault .badInLen (clearRun s)
  else { clearRun s with cause := .none, phase := .run }

/-- END (R114): report whether the output length is the expected one, and enter DONE. -/
def endRun (s : State) : State := { s with lenMatch := lengthMatches s, phase := .done }

end Sys2Proof.Machine
end

