-- ==== Sys2Proof/Machine/HostPort.lean ====
section
/-! DEFINITION. The host's side: the CSR window (spec/10_state.md R35 to R48), the host's accesses to
`IN` and `OUT` (spec/20_memory.md R50, R58, spec/70_reset_and_hazards.md R240 to R244) and the reset
(R230, R232). -/

namespace Sys2Proof.Machine

/-- The registers of the CSR window (R36). -/
inductive Csr where
  | ctrl
  | status
  | cause
  | faultIp
  | inLen
  | inPtr
  | outLen
  | expLen
  | cmdState
  /-- FLAGi. -/
  | flag (i : Fin 9)
  | outCapR
  | inCapR
  /-- An offset of the window that names no register. -/
  | unassigned
deriving DecidableEq, Repr

/-- The register at a 4-byte-aligned offset of the window (R36). -/
def csrAt (off : Nat) : Csr :=
  match off with
  | 0x00 => .ctrl
  | 0x04 => .status
  | 0x08 => .cause
  | 0x0C => .faultIp
  | 0x10 => .inLen
  | 0x14 => .inPtr
  | 0x18 => .outLen
  | 0x1C => .expLen
  | 0x20 => .cmdState
  | 0x24 => .flag 0
  | 0x28 => .flag 1
  | 0x2C => .flag 2
  | 0x30 => .flag 3
  | 0x34 => .flag 4
  | 0x38 => .flag 5
  | 0x3C => .flag 6
  | 0x40 => .flag 7
  | 0x44 => .flag 8
  | 0x48 => .outCapR
  | 0x4C => .inCapR
  | _ => .unassigned

/-- What a read of a register returns; it has no side effect (R38 to R48, R56). -/
def csrValue (r : Csr) (s : State) : Word :=
  match r with
  | .ctrl => bitWord s.irqEn <<< 1
  | .status => statusWord s
  | .cause => (causeCode s.cause).setWidth 32
  | .faultIp => s.faultIp
  | .inLen => s.inLen
  | .inPtr => s.ip
  | .outLen => s.op
  | .expLen => s.expLen
  | .cmdState => (s.mask ++ s.cmd : BitVec 16).setWidth 32
  | .flag i => s.flags[i].setWidth 32
  | .outCapR => BitVec.ofNat 32 s.cfg.outCap
  | .inCapR => BitVec.ofNat 32 s.cfg.inCap
  | .unassigned => 0

/-- Whether reading a register shows the host that a run has ended: STATUS with `phase` DONE or FAULT
(R62, log entry 17). -/
def showsEnd (r : Csr) (s : State) : Bool := r == .status && s.phase.ended

/-- A read of a register changes nothing but what the host knows (R56). -/
def readCsr (r : Csr) (s : State) : State :=
  { s with hostData := csrValue r s, endSeen := s.endSeen || showsEnd r s }

/-- The host has waited until `phase` is not RUN, by polling or by the interrupt (R212): it has seen
the end of a run if one has ended (R62, log entry 17). -/
def noteEnd (s : State) : State := { s with endSeen := s.endSeen || s.phase.ended }

/-- A write of `w` to CTRL (R37): IRQ_EN in every phase; then START unless in RUN, else ACK in DONE
and FAULT. -/
def writeCtrl (w : Word) (s : State) : State :=
  let t := { s with irqEn := w.getLsbD 1 }
  if w.getLsbD 0 ∧ s.phase ≠ .run then startRun t
  else if w.getLsbD 2 then acknowledge t
  else t

/-- A write of `w` to a register: CTRL, the RW-idle registers outside RUN, and nothing for the
read-only and unassigned ones (R35, R42, R45, R47). -/
def writeCsr (r : Csr) (w : Word) (s : State) : State :=
  match r with
  | .ctrl => writeCtrl w s
  | .inLen => if s.phase = .run then s else { s with inLen := w }
  | .expLen => if s.phase = .run then s else { s with expLen := w }
  | .flag i => if s.phase = .run then s else { s with flags := s.flags.set i (w.setWidth 8) }
  | .status => s
  | .cause => s
  | .faultIp => s
  | .inPtr => s
  | .outLen => s
  | .cmdState => s
  | .outCapR => s
  | .inCapR => s
  | .unassigned => s

/-- The size of the CSR window (R35, R50). -/
def csrWindow : Nat := 0x80

/-- Whether a CSR access is an aligned 32-bit one (R58). -/
def csrAligned (width off : Nat) : Bool := width == 4 && off % 4 == 0

/-- A CSR access: outside the window no register exists, and in it only aligned 32-bit accesses have
a meaning (R50, R58, R244). -/
def csrAccess (width off : Nat) (next : State) : Host.Outcome State Fault Refusal :=
  if csrWindow ≤ off then .fault .csrOutsideWindow
  else if csrAligned width off then .next next
  else .refused .csrAccessForm

/-- The reset (R230, R232): every register at its reset value, `IN` and `OUT` unspecified anew; the
parameters, the engine's number and the host's moves and data stay. -/
def resetEngine (s : State) : State :=
  { State.resetWith s.cfg s.engineId (s.draws + 1) with hostMoves := s.hostMoves, hostData := s.hostData }

/-- One access of the host (R50, R58, R241, R243). -/
def hostAccess (a : HostAccess) (s : State) : Host.Outcome State Fault Refusal :=
  match a with
  | .csrWrite width off w => csrAccess width off (writeCsr (csrAt off) w s)
  | .csrRead width off => csrAccess width off (readCsr (csrAt off) s)
  | .inWrite a b =>
    if s.phase = .run then .refused .memoryAccessInRun
    else if s.cfg.inCap ≤ a then .fault .inputAddress
    else .next { s with inMem := Memory.write s.inMem a b }
  | .inRead a =>
    if s.phase = .run then .refused .memoryAccessInRun
    else if s.cfg.inCap ≤ a then .fault .inputAddress
    else .next { s with hostData := (inByte s a).setWidth 32 }
  | .outWrite a b =>
    if s.phase = .run then .refused .memoryAccessInRun
    else if s.cfg.outCap ≤ a then .fault .outputAddress
    else .next { s with outMem := Memory.write s.outMem a b }
  | .outRead a =>
    if s.phase = .run then .refused .memoryAccessInRun
    else if s.cfg.outCap ≤ a then .fault .outputAddress
    else if s.endSeen = false then .refused .outputReadBeforeEnd
    else if s.op.toNat ≤ a then .refused .outputReadBeyondLength
    else .next { s with hostData := (outByte s a).setWidth 32 }
  | .reset => .next (resetEngine s)

/-- Whose turn it is, with the host's move taken off the script. -/
inductive Turn where
  /-- The host makes an access. -/
  | host (a : HostAccess) (s : State)
  /-- The engine takes one step (R111). -/
  | engine (s : State)
  /-- Nobody acts: the engine is quiescent outside RUN (R27, R217). -/
  | quiet (s : State)

/-- The turn the host's script gives (log entry 4). With the script empty the engine steps while
`phase` = RUN. -/
def turn (s : State) : Turn :=
  match s.hostMoves with
  | [] => if s.phase = .run then .engine s else .quiet s
  | .access a :: rest => .host a { s with hostMoves := rest }
  | .letStep :: rest =>
    if s.phase = .run then .engine { s with hostMoves := rest }
    else .quiet { s with hostMoves := rest }
  | .awaitEnd :: rest =>
    if s.phase = .run then .engine s else .quiet (noteEnd { s with hostMoves := rest })

end Sys2Proof.Machine
end

