-- ==== Sys2Proof/Machine/Fetch.lean ====
section
/-! DEFINITION. Fetching the next payload bytes (spec/20_memory.md R51, spec/41_command.md R111), what
happens where no unit can be read (R114, R176), and placing an instruction where the machine fetches
it (log entry 9). -/

namespace Sys2Proof.Machine

/-- The payload bytes at `ip` below `N`: none, one or two (R51, R171). -/
def payloadBytes (s : State) : List Byte :=
  if s.ip.toNat + 1 < s.inLen.toNat then [inByte s s.ip.toNat, inByte s (s.ip.toNat + 1)]
  else if s.ip.toNat < s.inLen.toNat then [inByte s s.ip.toNat]
  else []

/-- Whether `ip` has not passed `N` and the payload lies in `IN`, which holds in every run (R22,
R51). -/
def payloadInside (s : State) : Bool :=
  decide (s.ip.toNat ≤ s.inLen.toNat) && decide (s.inLen.toNat ≤ s.cfg.inCap)

/-- The step where no unit can be read: END at the end of the payload (R114), the fault entry at a
back-reference whose second byte is missing (R176). -/
def stopDecoding (e : DecodeStop) (s : State) : State :=
  match e with
  | .noByte => endRun s
  | .truncatedBackref _ _ => enterFault .truncatedBackref s

/-- The working registers of the slot an instruction word of `nbits` bits is read in (log entry
9). -/
def enterSlot (nbits : Nat) (s : State) : State :=
  match wordSlot nbits with
  | .command => { s with mask := 0 }
  | .literal => { s with cmd := 0x80, mask := 0x80 }
  | .token => { s with cmd := 0, mask := 0x80, flags := noMatchTable }

/-- An instruction word stored at `ip` (at 0 if it would pass `IN_CAP`), the byte after a one-byte
word zero, `IN_LEN` just past it, the engine in RUN and no host move to come (log entry 9). -/
def placeInstr (s : State) (nbits w : Nat) : State :=
  let at_ : Nat := if s.ip.toNat + 2 ≤ s.cfg.inCap then s.ip.toNat else 0
  let bytes := wordBytes nbits w
  enterSlot nbits
    { s with
      ip := BitVec.ofNat 32 at_
      inLen := BitVec.ofNat 32 (at_ + 2)
      inMem := Memory.write (Memory.write s.inMem at_ (bytes.getD 0 0)) (at_ + 1) (bytes.getD 1 0)
      phase := .run
      hostMoves := [] }

end Sys2Proof.Machine
end

