-- ==== Sys2Proof/Machine/Engine.lean ====
section
/-! DEFINITION. One step of the engine (spec/41_command.md R111 to R114). -/

namespace Sys2Proof.Machine

/-- One step in RUN (R111): END, a command byte or one unit, as the decoder finds. -/
def engineStep (s : State) : Host.Outcome State Fault Refusal :=
  if payloadInside s then
    match decode (selectSlot s.cmd s.mask) s.flags (payloadBytes s) with
    | .ok (i, _) => exec i s
    | .error e => .next (stopDecoding e s)
  else .fault .payloadOutsideInput

end Sys2Proof.Machine
end

