-- ==== Sys2Proof/Machine/Step.lean ====
section
/-! DEFINITION. One step of the machine: the host's next access, one engine step, or nothing outside
RUN (spec/20_memory.md R62, spec/41_command.md R111, spec/60_exceptions.md R217). -/

namespace Sys2Proof.Machine

/-- One step of the machine. -/
def step (s : State) : Host.Outcome State Fault Refusal :=
  match turn s with
  | .host a t => hostAccess a t
  | .engine t => engineStep t
  | .quiet t => .next t

/-- `s` with an instruction word where the next step fetches it (log entry 9). -/
def State.withFetchWord (s : State) (nbits w : Nat) : State := placeInstr s nbits w

end Sys2Proof.Machine
end

