-- ==== Sys2Proof/Machine/Assembler.lean ====
section
/-! DEFINITION. The assembler syntax of spec/30_encoding.md R79 with its checks, and the
pseudo-instructions of R80 with their expansions. -/

namespace Sys2Proof.Machine

/-- A unit as it is written in a line (R79, R80). -/
inductive AsmUnit where
  /-- `LIT d` -/
  | lit (d : Byte)
  /-- `PAT k, l` -/
  | pat (k l : Nat)
  /-- `BREF len, dist` -/
  | bref (len dist : Nat)
  /-- `DUP v` (R80) -/
  | dup (v : Byte)
  /-- `FILL v, n` (R80) -/
  | fill (v : Byte) (n : Nat)
  /-- `COPY len, dist` (R80) -/
  | copy (len dist : Nat)
deriving DecidableEq, Repr

/-- A line (R79, R80). -/
inductive AsmLine where
  /-- `.table t0,...,t8` -/
  | table (t : Table)
  /-- `CMD c` -/
  | cmd (c : Byte)
  /-- A unit -/
  | unit (u : AsmUnit)
  /-- `.byte b` -/
  | byte (b : Byte)
  /-- `GROUP u0, ..., uk` (R80) -/
  | group (us : List AsmUnit)
deriving DecidableEq, Repr

/-- What the assembler refuses (R79, R80). -/
inductive AsmReason where
  /-- `PAT k, l` with k above 8 or l above 15. -/
  | patOperand
  /-- `PAT k, l` whose `T[k]` is above 0x0F or occurs at a lower index. -/
  | patUnreachable
  /-- `BREF len, dist` outside 3 .. 18 or 1 .. 4096. -/
  | brefOperand
  /-- `BREF len, dist` whose length nibble is in the table. -/
  | brefInTable
  /-- `DUP v` whose two nibbles differ. -/
  | dupOperand
  /-- `FILL v, n` outside 4 .. 19. -/
  | fillOperand
  /-- A unit with no command bit left for it. -/
  | noCommandBit
  /-- A unit that does not agree with its command bit. -/
  | wrongCommandBit
  /-- A `GROUP` with no unit or more than eight. -/
  | groupSize
  /-- A `GROUP` of fewer than eight units with a line after it that emits a byte. -/
  | shortGroupNotLast
deriving DecidableEq, Repr

/-- The bytes of `PAT k, l`: `(T[k] << 4) | l` (R79). -/
def asmPat (t : Table) (k l : Nat) : Except AsmReason (List Byte) :=
  if h : k < 9 then
    if 16 ≤ l then .error .patOperand
    else
      let v : Byte := t[k]
      if 0x0F < v.toNat ∨ lookup t (v.setWidth 4) ≠ some ⟨k, h⟩ then .error .patUnreachable
      else .ok [packByte (v.setWidth 4) (BitVec.ofNat 4 l)]
  else .error .patOperand

/-- The bytes of `BREF len, dist`: `((len - 3) << 4) | e[11:8]`, `e[7:0]`, with `e = 0x1000 - dist`
(R79). -/
def asmBref (t : Table) (len dist : Nat) : Except AsmReason (List Byte) :=
  if len < 3 ∨ 18 < len ∨ dist < 1 ∨ 4096 < dist then .error .brefOperand
  else
    let h : Nibble := BitVec.ofNat 4 (len - 3)
    let e : BitVec 12 := BitVec.ofNat 12 (0x1000 - dist)
    if lookup t h ≠ none then .error .brefInTable
    else .ok [packByte h (e.extractLsb' 8 4), e.extractLsb' 0 8]

/-- The pieces of a written unit: whether each is a literal, and its bytes. The pseudo-instructions
expand as R80 says. -/
def asmUnit (t : Table) (u : AsmUnit) : Except AsmReason (List (Bool × List Byte)) :=
  match u with
  | .lit d => .ok [(true, [d])]
  | .pat k l => (asmPat t k l).map fun bs => [(false, bs)]
  | .bref len dist => (asmBref t len dist).map fun bs => [(false, bs)]
  | .dup v =>
    if highNibble v ≠ lowNibble v then .error .dupOperand
    else (asmPat t 0 (lowNibble v).toNat).map fun bs => [(false, bs)]
  | .fill v n =>
    if n < 4 ∨ 19 < n then .error .fillOperand
    else (asmBref t (n - 1) 1).map fun bs => [(true, [v]), (false, bs)]
  | .copy len dist => (asmBref t len dist).map fun bs => [(false, bs)]

/-- The pieces of several written units in order. -/
def asmUnits (t : Table) (us : List AsmUnit) : Except AsmReason (List (Bool × List Byte)) :=
  match us with
  | [] => .ok []
  | u :: rest =>
    match asmUnit t u, asmUnits t rest with
    | .ok ps, .ok qs => .ok (ps ++ qs)
    | .error r, _ => .error r
    | .ok _, .error r => .error r

/-- The command byte of a group: bit `7 - j` set exactly when piece `j` is a literal (R80). -/
def groupCommand (kinds : List Bool) : Byte :=
  match kinds with
  | [] => 0
  | b :: rest => (if b then 0x80 else 0) ||| groupCommand rest >>> 1

/-- What the assembler carries from line to line: the table, the command bits left (most significant
first), and the bytes so far. -/
structure AsmState where
  table : Table
  bits : List Bool
  out : List Byte
deriving DecidableEq, Repr

/-- The command bits of a byte, most significant first (R70). -/
def commandBits (c : Byte) : List Bool :=
  [c.getLsbD 7, c.getLsbD 6, c.getLsbD 5, c.getLsbD 4, c.getLsbD 3, c.getLsbD 2, c.getLsbD 1,
    c.getLsbD 0]

/-- Emit the pieces under the command bits left: each takes one bit and agrees with it (R79). -/
def asmPieces (ps : List (Bool × List Byte)) (a : AsmState) : Except AsmReason AsmState :=
  match ps with
  | [] => .ok a
  | (isLit, bs) :: rest =>
    match a.bits with
    | [] => .error .noCommandBit
    | b :: bits =>
      if b = isLit then asmPieces rest { a with bits := bits, out := a.out ++ bs }
      else .error .wrongCommandBit

/-- Whether a line emits no byte (R79). -/
def emitsNoByte : AsmLine → Bool
  | .table _ => true
  | .cmd _ => false
  | .unit _ => false
  | .byte _ => false
  | .group _ => false

/-- One line; `last` says whether no later line emits a byte (R79, R80, log entry 13). -/
def asmLine (last : Bool) (line : AsmLine) (a : AsmState) : Except AsmReason AsmState :=
  match line with
  | .table t => .ok { a with table := t }
  | .cmd c => .ok { a with bits := commandBits c, out := a.out ++ [c] }
  | .byte b => .ok { a with out := a.out ++ [b] }
  | .unit u =>
    match asmUnit a.table u with
    | .error r => .error r
    | .ok ps => asmPieces ps a
  | .group us =>
    match asmUnits a.table us with
    | .error r => .error r
    | .ok ps =>
      if ps.length < 1 ∨ 8 < ps.length then .error .groupSize
      else if ps.length < 8 ∧ last = false then .error .shortGroupNotLast
      else
        let c := groupCommand (ps.map Prod.fst)
        asmPieces ps { a with bits := commandBits c, out := a.out ++ [c] }

/-- The lines from number `n` on; a refusal names its line (R79). DESIGN CHOICE (log entry 13): the last
line of the payload is the last one that emits a byte, so `.table` lines may follow it. -/
def asmFrom (n : Nat) (lines : List AsmLine) (a : AsmState) : Except (Nat × AsmReason) AsmState :=
  match lines with
  | [] => .ok a
  | line :: rest =>
    match asmLine (rest.all emitsNoByte) line a with
    | .error r => .error (n, r)
    | .ok b => asmFrom (n + 1) rest b

/-- A program: its control-flag table and its payload, or the line refused and why (R79). Before a
`.table` line the table is the reset value (R36). -/
def assemble (lines : List AsmLine) : Except (Nat × AsmReason) (Table × List Byte) :=
  (asmFrom 0 lines ⟨Vector.replicate 9 0, [], []⟩).map fun a => (a.table, a.out)

end Sys2Proof.Machine
end

