-- ==== Sys2Proof/Machine/Frontend.lean ====
section
/-! DEFINITION. The compressed-frame front end: the frame, its parse, loading the engine from it and
the plan for one container entry (spec/40_frame_frontend.md R90 to R105). -/

namespace Sys2Proof.Machine

/-- Why a frame is malformed (R96). -/
inductive FormatReason where
  | truncatedHeader
  | badTotalLength
  | truncatedPayload
deriving DecidableEq, Repr

/-- What `ParseFrame` returns (R96). -/
inductive FrameParse where
  /-- The entry is no frame: its bytes are used as they are (R97, R101). -/
  | notCompressed
  /-- The entry is a malformed frame; it fails (R102). -/
  | formatError (reason : FormatReason)
  /-- A frame: table, payload, expected length. -/
  | frame (table : Table) (payload : List Byte) (expected : Word)
deriving DecidableEq, Repr

/-- The magic `PKDPX` (R91). -/
def frameMagic : List Byte := [0x50, 0x4B, 0x44, 0x50, 0x58]

/-- The size of the fixed header (R92). -/
def headerSize : Nat := 20

/-- Byte `i` of an entry. -/
def entryByte (f : List Byte) (i : Nat) : Byte := f.getD i 0

/-- `total_length`: bytes 5 and 6, little-endian (R92). -/
def totalLength (f : List Byte) : Nat := (entryByte f 6 ++ entryByte f 5 : BitVec 16).toNat

/-- `decompressed_length`: bytes 16 to 19, little-endian (R94). -/
def decompressedLength (f : List Byte) : Word :=
  (entryByte f 19 ++ entryByte f 18 ++ entryByte f 17 ++ entryByte f 16 : BitVec 32)

/-- The control-flag table: bytes 7 to 15, raw (R95). -/
def frameTable (f : List Byte) : Table :=
  #v[entryByte f 7, entryByte f 8, entryByte f 9, entryByte f 10, entryByte f 11, entryByte f 12,
    entryByte f 13, entryByte f 14, entryByte f 15]

/-- The payload: bytes 20 to `total_length` - 1 (R93). -/
def framePayload (f : List Byte) : List Byte := (f.drop headerSize).take (totalLength f - headerSize)

/-- `ParseFrame(F, L)` with `L` the number of bytes (R96). -/
def parseFrame (f : List Byte) : FrameParse :=
  if f.length < 5 ∨ f.take 5 ≠ frameMagic then .notCompressed
  else if f.length < headerSize then .formatError .truncatedHeader
  else if totalLength f < headerSize then .formatError .badTotalLength
  else if f.length < totalLength f then .formatError .truncatedPayload
  else .frame (frameTable f) (framePayload f) (decompressedLength f)

/-- The frame that packages a table, a payload and an expected length (R90). -/
def buildFrame (table : Table) (payload : List Byte) (expected : Word) : List Byte :=
  let tl : BitVec 16 := BitVec.ofNat 16 (headerSize + payload.length)
  frameMagic ++ [tl.extractLsb' 0 8, tl.extractLsb' 8 8] ++ table.toList ++
    [expected.extractLsb' 0 8, expected.extractLsb' 8 8, expected.extractLsb' 16 8,
      expected.extractLsb' 24 8] ++ payload

/-- A write of a whole CSR word, as the host makes it (R58). -/
def csrWriteMove (off : Nat) (w : Word) : HostMove := .access (.csrWrite 4 off w)

/-- The writes of FLAG0 .. FLAG8 (R100). -/
def tableMoves (table : Table) : List HostMove :=
  flagIndices.map fun i => csrWriteMove (0x24 + 4 * i.val) (table[i].setWidth 32)

/-- The writes of `IN[base ..]` (R100). -/
def payloadMoves (base : Nat) (payload : List Byte) : List HostMove :=
  match payload with
  | [] => []
  | b :: rest => .access (.inWrite base b) :: payloadMoves (base + 1) rest

/-- The host's moves that load the engine, up to but not including the write of CTRL (R100, R235). -/
def setupMoves (table : Table) (payload : List Byte) (expected : Word) : List HostMove :=
  tableMoves table ++ payloadMoves 0 payload ++
    [csrWriteMove 0x10 (BitVec.ofNat 32 payload.length), csrWriteMove 0x1C expected]

/-- The host's moves that load and start the engine, with IRQ_EN if wanted (R100). -/
def loadMoves (table : Table) (payload : List Byte) (expected : Word) (irq : Bool) :
    List HostMove :=
  setupMoves table payload expected ++ [csrWriteMove 0x00 (if irq then 3 else 1)]

/-- What becomes of one container entry (R105). -/
inductive EntryPlan where
  /-- The output is these bytes (R101). -/
  | passThrough (bytes : List Byte)
  /-- The entry fails (R102). -/
  | fail (reason : FormatReason)
  /-- The engine is loaded and started by these moves, and its result is the output (R100). -/
  | decompress (moves : List HostMove)
deriving DecidableEq, Repr

/-- The pipeline of R105 for one entry. -/
def planEntry (f : List Byte) (irq : Bool) : EntryPlan :=
  match parseFrame f with
  | .notCompressed => .passThrough f
  | .formatError r => .fail r
  | .frame table payload expected => .decompress (loadMoves table payload expected irq)

/-- The bytes an entry yields, given the engine's state when its run has ended: the entry's own bytes
where they are no frame (R101), nothing where the frame is malformed (R102), else the output of a
run that ended DONE; a faulted run fails its entry (R100, R105, R209). -/
def entryOutput (plan : EntryPlan) (s : State) : Option (List Byte) :=
  match plan with
  | .passThrough bytes => some bytes
  | .fail _ => none
  | .decompress _ => if s.phase = .done then some (outputBytes s) else none

end Sys2Proof.Machine
end

