-- ==== Sys2Proof/Machine/Platform.lean ====
section
/-! DEFINITION. Several engine instances on one platform, which share nothing (spec/20_memory.md R67,
spec/60_exceptions.md R221). -/

namespace Sys2Proof.Machine

/-- The instances of a platform (`NUM_INSTANCES` of them, R8). -/
abbrev Platform := List State

/-- `n` engines with parameters `p` right after power-up, each with its own number, so that nothing
relates what their unwritten bytes hold (R221, R231, log entries 2, 12). -/
def platformReset (p : Params) (n : Nat) : Platform :=
  (List.range n).map fun k => State.resetWith p k 0

/-- Instance `k` takes one step; the others are not touched (R221). An index beyond the instances
changes nothing. -/
def platformStep (k : Nat) (p : Platform) : Host.Outcome Platform Fault Refusal :=
  match p[k]? with
  | none => .next p
  | some s =>
    match step s with
    | .next t => .next (p.set k t)
    | .fault r => .fault r
    | .refused r => .refused r

end Sys2Proof.Machine
end

