-- ==== Sys2Proof/Safety.lean ====
section
/-! DEFINITION. The terms the statements use: whose turn it is, the machine invariant, the state a unit
leaves alone, the observation of a run (spec/00_scope.md R19) and what a run depends on
(spec/41_command.md R116). -/

namespace Sys2Proof.Machine

/-- The state after an outcome, if it is a next state. -/
def nextOf (o : Host.Outcome State Fault Refusal) : Option State :=
  match o with
  | .next s => some s
  | .fault _ => none
  | .refused _ => none

/-- A run is in progress and no host move is to come, so the next step is the engine's (R111). -/
abbrev EngineTurn (s : State) : Prop := s.hostMoves = [] ∧ s.phase = .run

/-- Where the engine can fetch: `ip` is below `N`, and the payload lies in `IN` (R51). -/
abbrev InPayload (s : State) : Prop :=
  s.ip.toNat < s.inLen.toNat ∧ s.inLen.toNat ≤ s.cfg.inCap

/-- The legal values of `mask` (R25). -/
def legalMasks : List Byte := [0x00, 0x80, 0x40, 0x20, 0x10, 0x08, 0x04, 0x02, 0x01]

/-- The invariant of the machine: every step keeps it, the host's moves among them. -/
structure Inv (s : State) : Prop where
  /-- The parameters are in the range R8 gives. -/
  params : s.cfg.valid
  /-- `IN` is in canonical form and inside its space (R50). -/
  inWf : Memory.wf s.inMem
  inBound : ∀ c ∈ s.inMem, c.1 < s.cfg.inCap
  /-- `OUT` is in canonical form and inside its space (R50). -/
  outWf : Memory.wf s.outMem
  outBound : ∀ c ∈ s.outMem, c.1 < s.cfg.outCap
  /-- `mask` is a legal value (R25). -/
  maskLegal : s.mask ∈ legalMasks
  /-- `op` never passes `OUT_CAP` (R23). -/
  opFits : s.op.toNat ≤ s.cfg.outCap
  /-- Every output byte below `op` has been written (R61). -/
  outWritten : ∀ a < s.op.toNat, (Memory.read s.outMem a).isSome
  /-- In a run `ip` has not passed `N`, the payload lies in `IN`, and no fault or report is recorded
  (R22, R28, R29, R30, R51), and the host has seen no end (R243, log entry 17). -/
  running : s.phase = .run → s.ip.toNat ≤ s.inLen.toNat ∧ s.inLen.toNat ≤ s.cfg.inCap ∧
    s.cause = .none ∧ s.faultIp = 0 ∧ s.lenMatch = false ∧ s.endSeen = false
  /-- A run that ended normally records no fault (R28, R29). -/
  finished : s.phase = .done → s.cause = .none ∧ s.faultIp = 0
  /-- A faulted run names its fault and where it stands, and reports no length (R29, R30, R43). -/
  faulted : s.phase = .fault → s.cause ≠ .none ∧ s.faultIp = s.ip ∧ s.lenMatch = false

/-- Whether an access writes or resets: the host's only ways to change an engine that is not running
(R217). -/
def HostAccess.changes : HostAccess → Bool
  | .csrWrite _ _ _ => true
  | .csrRead _ _ => false
  | .inWrite _ _ => true
  | .inRead _ => false
  | .outWrite _ _ => true
  | .outRead _ => false
  | .reset => true

/-- The bound of R10 at one moment of a run: at most 9 output bytes per payload byte consumed. -/
abbrev NineTimes (s : State) : Prop := s.op.toNat ≤ 9 * s.ip.toNat

/-- What no unit of the token stream writes: the table, the lengths, the host's bits, `IN`, and the
model's own fields (R21, R31, R51). -/
structure SameOutsideUnits (s t : State) : Prop where
  flags : t.flags = s.flags
  inLen : t.inLen = s.inLen
  expLen : t.expLen = s.expLen
  lenMatch : t.lenMatch = s.lenMatch
  irqEn : t.irqEn = s.irqEn
  inMem : t.inMem = s.inMem
  cfg : t.cfg = s.cfg
  draws : t.draws = s.draws
  hostMoves : t.hostMoves = s.hostMoves
  hostData : t.hostData = s.hostData
  endSeen : t.endSeen = s.endSeen
  engineId : t.engineId = s.engineId

/-- The fault entry of R206 as a record. -/
def atFault (c : Cause) (s : State) : State :=
  { s with faultIp := s.ip, cause := c, phase := .fault }

/-- The state after a completed pattern unit that appended `b0` and `b1` (R143, R150, R113). -/
def twoBytesAppended (b0 b1 : Byte) (s : State) : State :=
  { s with
    outMem := Memory.write (Memory.write s.outMem s.op.toNat b0) (s.op + 1).toNat b1
    op := s.op + 2
    ip := s.ip + 1
    mask := s.mask >>> 1 }

/-- The state START leaves (R110): a run from `IN[0]`, or the refusal BAD_IN_LEN. What the host has
seen is not said here (log entry 17). -/
def afterStart (s : State) : State :=
  { s with
    ip := 0
    op := 0
    cmd := 0
    mask := 0
    lenMatch := false
    faultIp := 0
    cause := if s.cfg.inCap < s.inLen.toNat then .badInLen else .none
    phase := if s.cfg.inCap < s.inLen.toNat then .fault else .run }

/-- The distance a back-reference's fields spell: `0x1000 - ((l << 8) | off_lo)` (R173, R174). -/
def spelledDistance (l : Nibble) (o : Byte) : Nat := 4096 - (256 * l.toNat + o.toNat)

/-- The run length a back-reference's field spells: `h + 3` (R175). -/
def spelledLength (h : Nibble) : Nat := h.toNat + 3

/-- A back-reference passes its three checks (R176, R177, R203). -/
abbrev BackrefPasses (h l : Nibble) (o : Byte) (s : State) : Prop :=
  s.ip.toNat + 1 < s.inLen.toNat ∧ spelledDistance l o ≤ s.op.toNat ∧
    s.op.toNat + spelledLength h ≤ s.cfg.outCap

/-- The host's next move is a whole-word write of `w` at the window's offset `off`, and `rest` comes
after it. -/
abbrev WritesNext (s : State) (off : Nat) (w : Word) (rest : List HostMove) : Prop :=
  s.hostMoves = .access (.csrWrite 4 off w) :: rest

/-- The host's next move is a whole-word read at the window's offset `off`, and `rest` comes after
it. -/
abbrev ReadsNext (s : State) (off : Nat) (rest : List HostMove) : Prop :=
  s.hostMoves = .access (.csrRead 4 off) :: rest

/-- The host's next move, a read of the register at `off`, returns the number `n` and changes nothing of
the engine; `seen` is what the host has seen of the run's end (log entry 17). -/
def ReadReturns (s : State) (off n : Nat) : Prop :=
  ∀ rest, ReadsNext s off rest →
    ∃ (v : Word) (seen : Bool), v.toNat = n ∧
      step s = .next { s with hostMoves := rest, hostData := v, endSeen := seen }

/-- The machine's `k` steps from `s`, stopping at the first fault or refusal. -/
def runFor (k : Nat) (s : State) : Host.Outcome State Fault Refusal := Host.Core.run Sys2Proof.core k s

/-- A model's observation of a run (R19). -/
structure Observation where
  phase : Phase
  cause : Cause
  faultIp : Word
  ip : Word
  op : Word
  lenMatch : Bool
  output : List Byte
deriving DecidableEq, Repr

/-- The observation of a state (R19). -/
def observe (s : State) : Observation where
  phase := s.phase
  cause := s.cause
  faultIp := s.faultIp
  ip := s.ip
  op := s.op
  lenMatch := s.lenMatch
  output := outputBytes s

/-- Two engines at the same point of a run, with the same table, payload, lengths, output capacity and
nibble order and the same output so far. `IN` at or above `N`, `OUT` at or above `op`, the interrupt
enable, the size of `IN` and the model's own fields may differ (R116). -/
structure SameRun (s t : State) : Prop where
  ip : t.ip = s.ip
  op : t.op = s.op
  cmd : t.cmd = s.cmd
  mask : t.mask = s.mask
  flags : t.flags = s.flags
  inLen : t.inLen = s.inLen
  expLen : t.expLen = s.expLen
  phase : t.phase = s.phase
  cause : t.cause = s.cause
  faultIp : t.faultIp = s.faultIp
  lenMatch : t.lenMatch = s.lenMatch
  outCap : t.cfg.outCap = s.cfg.outCap
  nibbleOrder : t.cfg.nibbleOrder = s.cfg.nibbleOrder
  payload : ∀ a < s.inLen.toNat, inByte t a = inByte s a
  output : ∀ a < s.op.toNat, outByte t a = outByte s a
  fits : s.inLen.toNat ≤ s.cfg.inCap ∧ t.inLen.toNat ≤ t.cfg.inCap
  moves : s.hostMoves = [] ∧ t.hostMoves = []

/-- A run just started: START's values (R110), with a payload that lies in `IN`. -/
structure JustStarted (s : State) : Prop where
  turn : EngineTurn s
  ip : s.ip = 0
  op : s.op = 0
  cmd : s.cmd = 0
  mask : s.mask = 0
  cause : s.cause = .none
  faultIp : s.faultIp = 0
  lenMatch : s.lenMatch = false
  fits : s.inLen.toNat ≤ s.cfg.inCap
  params : s.cfg.valid

end Sys2Proof.Machine
end

