-- ==== Sys2Proof/Certificates/Slice0/Obligations.lean ====
section
/-! DEFINITION. The statements for the provers, each from a numbered rule of spec/ or from sections of
it. -/

open Sys2Proof Sys2Proof.Machine

/-- R230: the reset state, for every parameter value. -/
def Obligations.ResetLeavesSpecValues : Prop :=
  ∀ (p : Params) (k n : Nat), p.valid →
    (State.resetWith p k n).phase = .idle ∧ (State.resetWith p k n).ip = 0 ∧
    (State.resetWith p k n).op = 0 ∧ (State.resetWith p k n).cmd = 0x00 ∧
    (State.resetWith p k n).mask = 0x00 ∧ (State.resetWith p k n).cause = .none ∧
    (State.resetWith p k n).faultIp = 0 ∧ (State.resetWith p k n).lenMatch = false ∧
    (State.resetWith p k n).irqEn = false ∧ irqLevel (State.resetWith p k n) = false ∧
    (∀ i : Fin 9, (State.resetWith p k n).flags[i] = 0x00) ∧ (State.resetWith p k n).inLen = 0 ∧
    (State.resetWith p k n).expLen = 0 ∧
    (csrValue .outCapR (State.resetWith p k n)).toNat = p.outCap ∧
    (csrValue .inCapR (State.resetWith p k n)).toNat = p.inCap

/-- The reset column of the register map of 10_state.md section 4. -/
def Obligations.ResetRegisterReads : Prop :=
  ∀ (p : Params) (k n off : Nat), off < 0x80 → off % 4 = 0 →
    hostAccess (.csrRead 4 off) (State.resetWith p k n) =
      .next { State.resetWith p k n with
        hostData := if off = 0x48 then BitVec.ofNat 32 p.outCap
          else if off = 0x4C then BitVec.ofNat 32 p.inCap else 0 }

/-- 70_reset_and_hazards.md section 1: a reset, in RUN or not. The model's choices here: the parameters stay
(log entry 1), the free bytes are those of one reset more (log entry 2), the script and the host's
data stay (log entry 4). -/
def Obligations.ResetEndsRunAtOnce : Prop :=
  ∀ (s : State) (rest : List HostMove), s.hostMoves = .access .reset :: rest →
    ∃ t, step s = .next t ∧
      t = { State.resetWith s.cfg s.engineId (s.draws + 1) with
        hostMoves := rest, hostData := s.hostData } ∧
      t.cause = .none ∧ t.phase = .idle ∧
      ∀ a, inByte t a = Config.freeInByte s.engineId (s.draws + 1) a ∧
        outByte t a = Config.freeOutByte s.engineId (s.draws + 1) a

/-- The link from the per-instruction statements to a run. -/
def Obligations.StepRunsDecodedInstruction : Prop :=
  ∀ (s : State) (i : Instr) (left : List Byte), s.phase = .run → InPayload s →
    decode (selectSlot s.cmd s.mask) s.flags (payloadBytes s) = .ok (i, left) →
    (s.hostMoves = [] → step s = exec i s) ∧
    (∀ rest, s.hostMoves = .awaitEnd :: rest → step s = exec i s) ∧
    (∀ rest, s.hostMoves = .letStep :: rest → step s = exec i { s with hostMoves := rest }) ∧
    payloadBytes s = inByte s s.ip.toNat ::
      (if s.ip.toNat + 1 < s.inLen.toNat then [inByte s (s.ip.toNat + 1)] else [])

/-- The order of the two agents (log entry 4): what the statements about an engine step say with no host move to
come (EndOfPayloadEndsRun and TruncatedBackrefStepFaults among them) also holds while the host waits. -/
def Obligations.HostAccessComesBeforeEngineStep : Prop :=
  (∀ (s : State) (a : HostAccess) (rest : List HostMove), s.hostMoves = .access a :: rest →
      step s = hostAccess a { s with hostMoves := rest }) ∧
    (∀ s t : State, s.phase = .run → step { s with hostMoves := [] } = .next t →
      (∀ rest, s.hostMoves = .awaitEnd :: rest →
        step s = .next { t with hostMoves := s.hostMoves }) ∧
      (∀ rest, s.hostMoves = .letStep :: rest → step s = .next { t with hostMoves := rest }))

/-- 60_exceptions.md section 4: quiescent in IDLE, DONE and FAULT. The script and the host's own fields are the
model's choice (log entries 4, 17). -/
def Obligations.QuiescentOutsideRun : Prop :=
  ∀ s : State, s.phase ≠ .run →
    (s.hostMoves = [] → step s = .next s) ∧
    (∀ rest, s.hostMoves = .letStep :: rest → step s = .next { s with hostMoves := rest }) ∧
    (∀ rest, s.hostMoves = .awaitEnd :: rest →
      step s = .next { s with hostMoves := rest, endSeen := s.endSeen || s.phase.ended }) ∧
    (∀ t, (∀ a rest, s.hostMoves = .access a :: rest → a.changes = false) → step s = .next t →
      t = { s with hostMoves := t.hostMoves, hostData := t.hostData, endSeen := t.endSeen })

/-- R114, END: selected when ip = N, whatever mask holds. -/
def Obligations.EndOfPayloadEndsRun : Prop :=
  ∀ s : State, EngineTurn s → s.ip = s.inLen → s.inLen.toNat ≤ s.cfg.inCap →
    step s = .next { s with lenMatch := decide (s.op = s.expLen), phase := .done }

/-- R112: CMD completes in every state. -/
def Obligations.CommandByteIsFetched : Prop :=
  (∀ (c : Byte) (s : State),
      exec (.cmd c) s = .next { s with cmd := c, ip := s.ip + 1, mask := 0x80 }) ∧
    (∀ s : State, EngineTurn s → InPayload s → s.mask = 0 →
      step s = .next { s with cmd := inByte s s.ip.toNat, ip := s.ip + 1, mask := 0x80 })

/-- R131: LIT completes whenever the output has room. -/
def Obligations.LiteralIsAppended : Prop :=
  (∀ (d : Byte) (s : State), s.op.toNat + 1 ≤ s.cfg.outCap →
      exec (.lit d) s = .next { s with
        outMem := Memory.write s.outMem s.op.toNat d
        op := s.op + 1
        ip := s.ip + 1
        mask := s.mask >>> 1 }) ∧
    (∀ (d : Byte) (s : State), s.cfg.outCap < s.op.toNat + 1 →
      exec (.lit d) s = .next (atFault .outputOverflow s)) ∧
    (∀ s : State, EngineTurn s → InPayload s → s.mask ≠ 0 → s.cmd &&& s.mask ≠ 0 →
      step s = exec (.lit (inByte s s.ip.toNat)) s)

/-- R143: PAT0 completes whenever the output has room for two bytes. -/
def Obligations.DuplicateNibblePattern : Prop :=
  (∀ (h l : Nibble) (s : State), s.op.toNat + 2 ≤ s.cfg.outCap →
      exec (.pat0 h l) s = .next (twoBytesAppended (l ++ l) (l ++ l) s)) ∧
    (∀ (h l : Nibble) (s : State), s.cfg.outCap < s.op.toNat + 2 →
      exec (.pat0 h l) s = .next (atFault .outputOverflow s)) ∧
    (∀ s : State, EngineTurn s → InPayload s → s.mask ≠ 0 → s.cmd &&& s.mask = 0 →
      lookup s.flags (highNibble (inByte s s.ip.toNat)) = some 0 →
      step s = exec (.pat0 (highNibble (inByte s s.ip.toNat))
        (lowNibble (inByte s s.ip.toNat))) s)

/-- The closed form of PAT1, which the spec marks as derived from the generic rule; PAT1 completes whenever two bytes fit. -/
def Obligations.PatternOneClosedForm : Prop :=
  ∀ (h l : Nibble) (s : State), s.op.toNat + 2 ≤ s.cfg.outCap →
    (s.cfg.nibbleOrder = .highFirst → exec (.pat1 h l) s =
      .next (twoBytesAppended (l ++ (l + 1)) ((l + 1) ++ (l + 1)) s)) ∧
    (s.cfg.nibbleOrder = .lowFirst → exec (.pat1 h l) s =
      .next (twoBytesAppended ((l + 1) ++ l) ((l + 1) ++ (l + 1)) s))

/-- The closed form of PAT2, which the spec marks as derived from the generic rule; PAT2 completes whenever two bytes fit. -/
def Obligations.PatternTwoClosedForm : Prop :=
  ∀ (h l : Nibble) (s : State), s.op.toNat + 2 ≤ s.cfg.outCap →
    (s.cfg.nibbleOrder = .highFirst → exec (.pat2 h l) s =
      .next (twoBytesAppended (l ++ (l - 1)) (l ++ l) s)) ∧
    (s.cfg.nibbleOrder = .lowFirst → exec (.pat2 h l) s =
      .next (twoBytesAppended ((l - 1) ++ l) (l ++ l) s))

/-- The closed form of PAT3, which the spec marks as derived from the generic rule; PAT3 completes whenever two bytes fit. -/
def Obligations.PatternThreeClosedForm : Prop :=
  ∀ (h l : Nibble) (s : State), s.op.toNat + 2 ≤ s.cfg.outCap →
    (s.cfg.nibbleOrder = .highFirst → exec (.pat3 h l) s =
      .next (twoBytesAppended (l ++ l) ((l - 1) ++ l) s)) ∧
    (s.cfg.nibbleOrder = .lowFirst → exec (.pat3 h l) s =
      .next (twoBytesAppended (l ++ l) (l ++ (l - 1)) s))

/-- The closed form of PAT4, which the spec marks as derived from the generic rule; PAT4 completes whenever two bytes fit. -/
def Obligations.PatternFourClosedForm : Prop :=
  ∀ (h l : Nibble) (s : State), s.op.toNat + 2 ≤ s.cfg.outCap →
    (s.cfg.nibbleOrder = .highFirst → exec (.pat4 h l) s =
      .next (twoBytesAppended (l ++ l) (l ++ (l - 1)) s)) ∧
    (s.cfg.nibbleOrder = .lowFirst → exec (.pat4 h l) s =
      .next (twoBytesAppended (l ++ l) ((l - 1) ++ l) s))

/-- The closed form of PAT5, which the spec marks as derived from the generic rule; PAT5 completes whenever two bytes fit. -/
def Obligations.PatternFiveClosedForm : Prop :=
  ∀ (h l : Nibble) (s : State), s.op.toNat + 2 ≤ s.cfg.outCap →
    (s.cfg.nibbleOrder = .highFirst → exec (.pat5 h l) s =
      .next (twoBytesAppended (l ++ (l - 1)) ((l - 1) ++ (l - 1)) s)) ∧
    (s.cfg.nibbleOrder = .lowFirst → exec (.pat5 h l) s =
      .next (twoBytesAppended ((l - 1) ++ l) ((l - 1) ++ (l - 1)) s))

/-- The closed form of PAT6, which the spec marks as derived from the generic rule; PAT6 completes whenever two bytes fit. -/
def Obligations.PatternSixClosedForm : Prop :=
  ∀ (h l : Nibble) (s : State), s.op.toNat + 2 ≤ s.cfg.outCap →
    (s.cfg.nibbleOrder = .highFirst → exec (.pat6 h l) s =
      .next (twoBytesAppended (l ++ (l + 1)) (l ++ l) s)) ∧
    (s.cfg.nibbleOrder = .lowFirst → exec (.pat6 h l) s =
      .next (twoBytesAppended ((l + 1) ++ l) (l ++ l) s))

/-- The closed form of PAT7, which the spec marks as derived from the generic rule; PAT7 completes whenever two bytes fit. -/
def Obligations.PatternSevenClosedForm : Prop :=
  ∀ (h l : Nibble) (s : State), s.op.toNat + 2 ≤ s.cfg.outCap →
    (s.cfg.nibbleOrder = .highFirst → exec (.pat7 h l) s =
      .next (twoBytesAppended (l ++ l) ((l + 1) ++ l) s)) ∧
    (s.cfg.nibbleOrder = .lowFirst → exec (.pat7 h l) s =
      .next (twoBytesAppended (l ++ l) (l ++ (l + 1)) s))

/-- The closed form of PAT8, which the spec marks as derived from the generic rule; PAT8 completes whenever two bytes fit. -/
def Obligations.PatternEightClosedForm : Prop :=
  ∀ (h l : Nibble) (s : State), s.op.toNat + 2 ≤ s.cfg.outCap →
    (s.cfg.nibbleOrder = .highFirst → exec (.pat8 h l) s =
      .next (twoBytesAppended (l ++ l) (l ++ (l + 1)) s)) ∧
    (s.cfg.nibbleOrder = .lowFirst → exec (.pat8 h l) s =
      .next (twoBytesAppended (l ++ l) ((l + 1) ++ l) s))

/-- R150, R159, R160 for every index 1 .. 8. -/
def Obligations.PatternArithmeticWrapsModulo16 : Prop :=
  (∀ (k : Fin 9) (h l : Nibble) (n : Fin 4 → Nibble) (s : State), 1 ≤ k.val →
      (∀ j : Fin 4, ((n j).toNat : Int) =
        ((l.toNat : Int) + (if k.val = 1 then 1 else if k.val = 5 then -1 else 0) +
          (if k.val ≤ 4 then (if j.val + 1 = k.val then -1 else 0)
            else (if j.val + 5 = k.val then 1 else 0))) % 16) →
      (s.op.toNat + 2 ≤ s.cfg.outCap → s.cfg.nibbleOrder = .highFirst →
        exec (patternInstr k h l) s =
          .next (twoBytesAppended (n 0 ++ n 1) (n 2 ++ n 3) s)) ∧
      (s.op.toNat + 2 ≤ s.cfg.outCap → s.cfg.nibbleOrder = .lowFirst →
        exec (patternInstr k h l) s =
          .next (twoBytesAppended (n 1 ++ n 0) (n 3 ++ n 2) s)) ∧
      (s.cfg.outCap < s.op.toNat + 2 →
        exec (patternInstr k h l) s = .next (atFault .outputOverflow s))) ∧
    (∀ (k : Fin 9) (s : State), EngineTurn s → InPayload s → s.mask ≠ 0 →
      s.cmd &&& s.mask = 0 → lookup s.flags (highNibble (inByte s s.ip.toNat)) = some k →
      step s = exec (patternInstr k (highNibble (inByte s s.ip.toNat))
        (lowNibble (inByte s s.ip.toNat))) s) ∧
    (∀ (h l : Nibble) (s : State) (order : NibbleOrder), s.op.toNat + 2 ≤ s.cfg.outCap →
      exec (.pat0 h l) { s with cfg := { s.cfg with nibbleOrder := order } } =
        .next (twoBytesAppended (l ++ l) (l ++ l)
          { s with cfg := { s.cfg with nibbleOrder := order } }))

/-- R203. -/
def Obligations.OverflowingUnitWritesNothing : Prop :=
  ∀ s : State,
    (∀ d : Byte, s.cfg.outCap < s.op.toNat + 1 →
      exec (.lit d) s = .next (atFault .outputOverflow s)) ∧
    (∀ (k : Fin 9) (h l : Nibble), s.cfg.outCap < s.op.toNat + 2 →
      exec (patternInstr k h l) s = .next (atFault .outputOverflow s)) ∧
    (∀ (h l : Nibble) (o : Byte), s.ip.toNat + 1 < s.inLen.toNat →
      spelledDistance l o ≤ s.op.toNat → s.cfg.outCap < s.op.toNat + spelledLength h →
      exec (.bref h l o) s = .next (atFault .outputOverflow s))

/-- The copy of rule R178: BREF completes when its three checks pass. -/
def Obligations.BackrefCopiesByteByByte : Prop :=
  ∀ (h l : Nibble) (o : Byte) (s : State), s.cfg.valid → BackrefPasses h l o s →
    ∃ t, exec (.bref h l o) s = .next t ∧
      t = { s with
        outMem := t.outMem
        op := s.op + BitVec.ofNat 32 (spelledLength h)
        ip := s.ip + 2
        mask := s.mask >>> 1 } ∧
      (∀ i < spelledLength h, outByte t (s.op.toNat + i) =
        outByte t (s.op.toNat + i - spelledDistance l o)) ∧
      (∀ a, a < s.op.toNat ∨ s.op.toNat + spelledLength h ≤ a → outByte t a = outByte s a)

/-- The overlap law of 44_backref.md section 3, which the spec marks as derived. -/
def Obligations.OverlappingCopyRepeats : Prop :=
  ∀ (h l : Nibble) (o : Byte) (s : State), s.cfg.valid → BackrefPasses h l o s →
    ∃ t, exec (.bref h l o) s = .next t ∧
      ∀ i < spelledLength h, outByte t (s.op.toNat + i) =
        outByte s (s.op.toNat - spelledDistance l o + i % spelledDistance l o)

/-- R176 and R177, in the order of rule R207. -/
def Obligations.BackrefChecksInOrder : Prop :=
  ∀ (h l : Nibble) (o : Byte) (s : State),
    (s.inLen.toNat ≤ s.ip.toNat + 1 →
      exec (.bref h l o) s = .next (atFault .truncatedBackref s)) ∧
    (s.ip.toNat + 1 < s.inLen.toNat → s.op.toNat < spelledDistance l o →
      exec (.bref h l o) s = .next (atFault .backrefUnderflow s))

/-- R202. -/
def Obligations.TruncatedBackrefStepFaults : Prop :=
  ∀ s : State, EngineTurn s → s.ip.toNat + 1 = s.inLen.toNat → s.inLen.toNat ≤ s.cfg.inCap →
    s.mask ≠ 0 → s.cmd &&& s.mask = 0 →
    lookup s.flags (highNibble (inByte s s.ip.toNat)) = none →
    ∃ t, step s = .next t ∧ t = atFault .truncatedBackref s ∧
      t.faultIp.toNat = s.inLen.toNat - 1

/-- The precision of the fault entry, over all instructions and all engine steps. -/
def Obligations.FaultEntryIsPrecise : Prop :=
  (∀ (i : Instr) (s t : State), s.phase ≠ .fault → exec i s = .next t → t.phase = .fault →
      t = atFault t.cause s) ∧
    (∀ s t : State, EngineTurn s → step s = .next t → t.phase = .fault → t = atFault t.cause s)

/-- 60_exceptions.md section 1: which unit raises which cause. -/
def Obligations.EngineFaultsNameTheirUnit : Prop :=
  ∀ s t : State, EngineTurn s → step s = .next t → t.phase = .fault →
    t.cause ∈ [Cause.backrefUnderflow, .truncatedBackref, .outputOverflow] ∧
    (t.cause ≠ .outputOverflow → s.mask ≠ 0 ∧ s.cmd &&& s.mask = 0 ∧
      lookup s.flags (highNibble (inByte s s.ip.toNat)) = none)

/-- 30_encoding.md section 3 and 60_exceptions.md section 1: no illegal encoding, no other fault. -/
def Obligations.EngineStepNeverStops : Prop :=
  (∀ (i : Instr) (s : State), ∃ t, exec i s = .next t) ∧
    (∀ s : State, EngineTurn s → s.ip.toNat ≤ s.inLen.toNat → s.inLen.toNat ≤ s.cfg.inCap →
      ∃ t, step s = .next t)

/-- The frame of CMD. -/
def Obligations.CommandFrame : Prop :=
  ∀ (c : Byte) (s t : State), exec (.cmd c) s = .next t →
    SameOutsideUnits s t ∧ t.op = s.op ∧ t.phase = s.phase ∧ t.cause = s.cause ∧
    t.faultIp = s.faultIp ∧ (∀ a, inByte t a = inByte s a) ∧ (∀ a, outByte t a = outByte s a)

/-- The frame of LIT and PAT0 .. PAT8. -/
def Obligations.LiteralAndPatternFrame : Prop :=
  ∀ (i : Instr) (n : Nat) (s t : State),
    ((∃ d, i = .lit d) ∧ n = 1) ∨ ((∃ k h l, i = patternInstr k h l) ∧ n = 2) →
    s.cfg.valid → exec i s = .next t →
    SameOutsideUnits s t ∧ t.cmd = s.cmd ∧ (∀ a, inByte t a = inByte s a) ∧
    (∀ a, a < s.op.toNat ∨ s.op.toNat + n ≤ a → outByte t a = outByte s a) ∧
    ((t.phase = s.phase ∧ t.cause = s.cause ∧ t.faultIp = s.faultIp) ∨
      t = atFault .outputOverflow s)

/-- The frame of BREF. -/
def Obligations.BackrefFrame : Prop :=
  ∀ (h l : Nibble) (o : Byte) (s t : State), s.cfg.valid → exec (.bref h l o) s = .next t →
    SameOutsideUnits s t ∧ t.cmd = s.cmd ∧ (∀ a, inByte t a = inByte s a) ∧
    (∀ a, a < s.op.toNat ∨ s.op.toNat + spelledLength h ≤ a → outByte t a = outByte s a) ∧
    ((t.phase = s.phase ∧ t.cause = s.cause ∧ t.faultIp = s.faultIp) ∨
      (∃ c ∈ [Cause.truncatedBackref, .backrefUnderflow, .outputOverflow], t = atFault c s))

/-- R113 and R140. -/
def Obligations.CommandBitSelectsUnit : Prop :=
  ∀ s : State, EngineTurn s → InPayload s → s.mask ≠ 0 →
    (s.cmd &&& s.mask ≠ 0 → step s = exec (.lit (inByte s s.ip.toNat)) s) ∧
    (s.cmd &&& s.mask = 0 → ∀ k, lookup s.flags (highNibble (inByte s s.ip.toNat)) = some k →
      step s = exec (patternInstr k (highNibble (inByte s s.ip.toNat))
        (lowNibble (inByte s s.ip.toNat))) s) ∧
    (s.cmd &&& s.mask = 0 → lookup s.flags (highNibble (inByte s s.ip.toNat)) = none →
      s.ip.toNat + 1 < s.inLen.toNat →
      step s = exec (.bref (highNibble (inByte s s.ip.toNat)) (lowNibble (inByte s s.ip.toNat))
        (inByte s (s.ip.toNat + 1))) s) ∧
    (s.cmd &&& s.mask = 0 → lookup s.flags (highNibble (inByte s s.ip.toNat)) = none →
      s.ip.toNat + 1 = s.inLen.toNat → step s = .next (atFault .truncatedBackref s)) ∧
    (∀ t, step s = .next t → t.mask = if t.phase = .fault then s.mask else s.mask >>> 1)

/-- 10_state.md section 2: what a step does to ip. -/
def Obligations.EngineStepConsumesPayload : Prop :=
  ∀ s t : State, EngineTurn s → s.ip.toNat ≤ s.inLen.toNat → step s = .next t →
    (t.phase = .run ∧ s.ip.toNat < s.inLen.toNat ∧ t.ip.toNat ≤ s.inLen.toNat ∧
      t.ip.toNat = s.ip.toNat +
        (if s.mask ≠ 0 ∧ s.cmd &&& s.mask = 0 ∧
            lookup s.flags (highNibble (inByte s s.ip.toNat)) = none then 2 else 1)) ∨
    (t.phase.ended = true ∧ t.ip = s.ip)

/-- 41_command.md section 3: a run ends within N + 1 steps (the spec derives it). -/
def Obligations.RunEndsWithinPayloadLength : Prop :=
  ∀ s : State, EngineTurn s → s.ip.toNat ≤ s.inLen.toNat → s.inLen.toNat ≤ s.cfg.inCap →
    ∃ t, runFor (s.inLen.toNat - s.ip.toNat + 1) s = .next t ∧ t.phase.ended = true

/-- 41_command.md section 3: the result of a run depends only on T, the payload, N, EXP_LEN and OUT_CAP (the spec derives it). -/
def Obligations.RunDependsOnlyOnItsInputs : Prop :=
  ∀ (s t : State) (k : Nat) (s' : State), s.cfg.valid → SameRun s t → runFor k s = .next s' →
    ∃ t', runFor k t = .next t' ∧ observe t' = observe s'

/-- 00_scope.md section 4: at most 9 output bytes per input byte (the spec derives it), as a step lemma. -/
def Obligations.OutputIsAtMostNineTimesInput : Prop :=
  (∀ s t : State, s.cfg.valid → NineTimes s → step s = .next t →
      NineTimes t ∧ (9 * s.inLen.toNat ≤ s.cfg.outCap → s.cause ≠ .outputOverflow →
        t.cause ≠ .outputOverflow)) ∧
    (∀ (p : Params) (k n : Nat), NineTimes (State.resetWith p k n)) ∧
    (∀ s : State, NineTimes (afterStart s))

/-- The machine invariant Inv; its parts are the machine statements of 10_state.md and 20_memory.md. -/
def Obligations.EveryStepKeepsMachineInvariant : Prop :=
  ∀ s t : State, Inv s → step s = .next t → Inv t

/-- Inv holds at reset. -/
def Obligations.ResetMeetsMachineInvariant : Prop :=
  (∀ (p : Params) (k n : Nat), p.valid → Inv (State.resetWith p k n)) ∧ Inv State.reset

/-- 10_state.md section 2: append-only. -/
def Obligations.OutputOnlyGrowsWithinCapacity : Prop :=
  ∀ s t : State, EngineTurn s → s.cfg.valid → s.op.toNat ≤ s.cfg.outCap → step s = .next t →
    s.op.toNat ≤ t.op.toNat ∧ t.op.toNat ≤ s.cfg.outCap ∧
    ∀ a, a < s.op.toNat ∨ t.op.toNat ≤ a → outByte t a = outByte s a

/-- 20_memory.md sections 1 and 3, 70_reset_and_hazards.md section 3, over all engine steps. -/
def Obligations.EngineNeverWritesItsInputs : Prop :=
  ∀ s t : State, EngineTurn s → step s = .next t →
    t.inMem = s.inMem ∧ t.flags = s.flags ∧ t.inLen = s.inLen ∧ t.expLen = s.expLen ∧
    t.irqEn = s.irqEn ∧ t.cfg = s.cfg ∧ t.draws = s.draws ∧ t.hostMoves = s.hostMoves ∧
    t.hostData = s.hostData ∧ t.endSeen = s.endSeen ∧ t.engineId = s.engineId ∧
    (t.phase ≠ .done → t.lenMatch = s.lenMatch)

/-- R110. What the host has seen of a run's end is the model's own and left open here (log entry 17). -/
def Obligations.StartBeginsRun : Prop :=
  ∀ (s : State) (w : Word) (rest : List HostMove), WritesNext s 0x00 w rest → s.phase ≠ .run →
    w.getLsbD 0 = true →
    ∃ seen, step s = .next { afterStart { s with hostMoves := rest, irqEn := w.getLsbD 1 } with
      endSeen := seen }

/-- R37. What the host has seen of a run's end is the model's own and left open after START (log entry 17). -/
def Obligations.ControlRegisterWritesAndReads : Prop :=
  (∀ (s : State) (w : Word) (rest : List HostMove), WritesNext s 0x00 w rest →
      ∃ seen, step s = .next
        (if w.getLsbD 0 = true ∧ s.phase ≠ .run then
          { afterStart { s with hostMoves := rest, irqEn := w.getLsbD 1 } with endSeen := seen }
        else if w.getLsbD 2 = true ∧ (s.phase = .done ∨ s.phase = .fault) then
          { s with hostMoves := rest, irqEn := w.getLsbD 1, phase := .idle }
        else { s with hostMoves := rest, irqEn := w.getLsbD 1 })) ∧
    (∀ s : State, ReadReturns s 0x00 (if s.irqEn then 2 else 0))

/-- R45, and the same for IN_LEN. -/
def Obligations.LengthRegistersTakeWritesOutsideRun : Prop :=
  ∀ (s : State) (w : Word) (rest : List HostMove),
    (WritesNext s 0x1C w rest → s.phase ≠ .run →
      step s = .next { s with hostMoves := rest, expLen := w }) ∧
    (WritesNext s 0x1C w rest → s.phase = .run → step s = .next { s with hostMoves := rest }) ∧
    (WritesNext s 0x10 w rest → s.phase ≠ .run →
      step s = .next { s with hostMoves := rest, inLen := w }) ∧
    (WritesNext s 0x10 w rest → s.phase = .run → step s = .next { s with hostMoves := rest }) ∧
    ReadReturns s 0x1C s.expLen.toNat ∧ ReadReturns s 0x10 s.inLen.toNat

/-- R47. -/
def Obligations.FlagRegistersHoldTheTable : Prop :=
  ∀ (s : State) (i : Fin 9) (w : Word) (rest : List HostMove),
    (WritesNext s (0x24 + 4 * i.val) w rest → s.phase ≠ .run →
      ∃ t, step s = .next t ∧ t = { s with hostMoves := rest, flags := t.flags } ∧
        t.flags[i].toNat = w.toNat % 256 ∧ ∀ j : Fin 9, j ≠ i → t.flags[j] = s.flags[j]) ∧
    (WritesNext s (0x24 + 4 * i.val) w rest → s.phase = .run →
      step s = .next { s with hostMoves := rest }) ∧
    ReadReturns s (0x24 + 4 * i.val) s.flags[i].toNat

/-- The conventions of 10_state.md section 4. -/
def Obligations.ReadOnlyAndUnassignedOffsetsIgnoreWrites : Prop :=
  ∀ (s : State) (off : Nat),
    (off ∈ [0x04, 0x08, 0x0C, 0x14, 0x18, 0x20, 0x48, 0x4C] ∨
        (0x50 ≤ off ∧ off < 0x80 ∧ off % 4 = 0) →
      ∀ (w : Word) (rest : List HostMove), WritesNext s off w rest →
        step s = .next { s with hostMoves := rest }) ∧
    (0x50 ≤ off ∧ off < 0x80 ∧ off % 4 = 0 → ReadReturns s off 0)

/-- R39, R40, R41, R44, R48; CMDSTATE and IN_PTR as 10_state.md section 4 gives them. -/
def Obligations.RegisterViewsShowTheState : Prop :=
  ∀ s : State, s.cfg.valid →
    ReadReturns s 0x04 ((match s.phase with | .idle => 0 | .run => 1 | .done => 2 | .fault => 3) +
      (if s.lenMatch then 4 else 0) +
      (if s.irqEn = true ∧ (s.phase = .done ∨ s.phase = .fault) then 8 else 0)) ∧
    ReadReturns s 0x08 (match s.cause with
      | .none => 0 | .backrefUnderflow => 1 | .truncatedBackref => 2 | .outputOverflow => 3
      | .badInLen => 4) ∧
    ReadReturns s 0x0C s.faultIp.toNat ∧ ReadReturns s 0x14 s.ip.toNat ∧
    ReadReturns s 0x18 s.op.toNat ∧ ReadReturns s 0x20 (256 * s.mask.toNat + s.cmd.toNat) ∧
    ReadReturns s 0x48 s.cfg.outCap ∧ ReadReturns s 0x4C s.cfg.inCap

/-- R58. -/
def Obligations.IllFormedRegisterAccessIsRefused : Prop :=
  ∀ (s : State) (width off : Nat) (w : Word) (rest : List HostMove), off < 0x80 →
    width ≠ 4 ∨ off % 4 ≠ 0 →
    (s.hostMoves = .access (.csrWrite width off w) :: rest →
      step s = .refused .csrAccessForm) ∧
    (s.hostMoves = .access (.csrRead width off) :: rest → step s = .refused .csrAccessForm)

/-- 20_memory.md section 1: host access to IN and OUT; when the host has seen the end of a run is log entry 17. -/
def Obligations.HostMemoryAccessOutsideRun : Prop :=
  (∀ (s : State) (a : Nat) (b : Byte) (rest : List HostMove), s.phase ≠ .run →
      (s.hostMoves = .access (.inWrite a b) :: rest → a < s.cfg.inCap →
        ∃ t, step s = .next t ∧ t = { s with hostMoves := rest, inMem := t.inMem } ∧
          inByte t a = b ∧ ∀ x, x ≠ a → inByte t x = inByte s x) ∧
      (s.hostMoves = .access (.outWrite a b) :: rest → a < s.cfg.outCap →
        ∃ t, step s = .next t ∧ t = { s with hostMoves := rest, outMem := t.outMem } ∧
          outByte t a = b ∧ ∀ x, x ≠ a → outByte t x = outByte s x) ∧
      (s.hostMoves = .access (.inRead a) :: rest → a < s.cfg.inCap →
        step s = .next { s with hostMoves := rest, hostData := (inByte s a).setWidth 32 }) ∧
      (s.hostMoves = .access (.outRead a) :: rest → a < s.cfg.outCap → a < s.op.toNat →
        s.endSeen = true →
        step s = .next { s with hostMoves := rest, hostData := (outByte s a).setWidth 32 })) ∧
    (∀ s t : State, step s = .next t →
      (t.endSeen = true ↔
        (s.endSeen = true ∧ (∀ rest, s.hostMoves ≠ .access .reset :: rest) ∧
          ¬ (s.phase ≠ .run ∧ ∃ w rest, WritesNext s 0x00 w rest ∧ w.getLsbD 0 = true)) ∨
        ((s.phase = .done ∨ s.phase = .fault) ∧
          ∃ rest, s.hostMoves = .awaitEnd :: rest ∨ ReadsNext s 0x04 rest)))

/-- The host's duties of 70_reset_and_hazards.md section 4 (log entries 5, 6, 7, 17). -/
def Obligations.HostMemoryAccessStops : Prop :=
  ∀ (s : State) (a : Nat) (b : Byte) (w : Word) (width : Nat) (m : HostAccess)
      (rest : List HostMove), s.hostMoves = .access m :: rest →
    (s.phase = .run →
      m ∈ [HostAccess.inWrite a b, .inRead a, .outWrite a b, .outRead a] →
      step s = .refused .memoryAccessInRun) ∧
    (s.phase ≠ .run → s.cfg.inCap ≤ a → m ∈ [HostAccess.inWrite a b, .inRead a] →
      step s = .fault .inputAddress) ∧
    (s.phase ≠ .run → s.cfg.outCap ≤ a → m ∈ [HostAccess.outWrite a b, .outRead a] →
      step s = .fault .outputAddress) ∧
    (s.phase ≠ .run → a < s.cfg.outCap → s.endSeen = false → m = .outRead a →
      step s = .refused .outputReadBeforeEnd) ∧
    (s.phase ≠ .run → a < s.cfg.outCap → s.endSeen = true → s.op.toNat ≤ a → m = .outRead a →
      step s = .refused .outputReadBeyondLength) ∧
    (0x80 ≤ a → m ∈ [HostAccess.csrWrite width a w, .csrRead width a] →
      step s = .fault .csrOutsideWindow)

/-- 60_exceptions.md section 3. -/
def Obligations.InterruptLevelFollowsPhase : Prop :=
  (∀ s : State, irqLevel s = true ↔ s.irqEn = true ∧ (s.phase = .done ∨ s.phase = .fault)) ∧
    (∀ (s t : State) (w : Word) (rest : List HostMove), WritesNext s 0x00 w rest →
      step s = .next t →
      (w.getLsbD 0 = false → w.getLsbD 2 = true → irqLevel t = false) ∧
      (w.getLsbD 1 = false → irqLevel t = false) ∧
      (w.getLsbD 0 = true → s.phase ≠ .run →
        (irqLevel t = true ↔ w.getLsbD 1 = true ∧ s.cfg.inCap < s.inLen.toNat)))

/-- 40_frame_frontend.md sections 1 and 2: the layout, and trailing bytes ignored. -/
def Obligations.ParseReadsBackBuiltFrame : Prop :=
  ∀ (t : Table) (p : List Byte) (e : Word) (extra : List Byte), p.length ≤ 65515 →
    parseFrame (buildFrame t p e ++ extra) = .frame t p e

/-- 43_pattern.md section 1, a corner case the spec marks as derived (16 - 9 = 7). -/
def Obligations.AtLeastSevenNibblesSelectBackref : Prop :=
  ∀ t : Table,
    7 ≤ ((List.range 16).filter fun n => (lookup t (BitVec.ofNat 4 n)).isNone).length

/-- R96 and R97. -/
def Obligations.ParseFrameDecidesInOrder : Prop :=
  ∀ f : List Byte, ∀ tl : Nat, tl = (f.getD 5 0).toNat + 256 * (f.getD 6 0).toNat →
    (f.length < 5 ∨ f.take 5 ≠ [0x50, 0x4B, 0x44, 0x50, 0x58] →
      parseFrame f = .notCompressed) ∧
    (f.take 5 = [0x50, 0x4B, 0x44, 0x50, 0x58] → f.length < 20 →
      parseFrame f = .formatError .truncatedHeader) ∧
    (f.take 5 = [0x50, 0x4B, 0x44, 0x50, 0x58] → 20 ≤ f.length → tl < 20 →
      parseFrame f = .formatError .badTotalLength) ∧
    (f.take 5 = [0x50, 0x4B, 0x44, 0x50, 0x58] → 20 ≤ f.length → 20 ≤ tl → f.length < tl →
      parseFrame f = .formatError .truncatedPayload) ∧
    (f.take 5 = [0x50, 0x4B, 0x44, 0x50, 0x58] → 20 ≤ tl → tl ≤ f.length →
      ∃ (t : Table) (p : List Byte) (e : Word), parseFrame f = .frame t p e ∧
        (∀ i : Fin 9, t[i] = f.getD (7 + i.val) 0) ∧ p.length = tl - 20 ∧
        (∀ j < tl - 20, p[j]? = f[20 + j]?) ∧
        e.toNat = (f.getD 16 0).toNat + 256 * (f.getD 17 0).toNat +
          65536 * (f.getD 18 0).toNat + 16777216 * (f.getD 19 0).toNat)

/-- 40_frame_frontend.md section 3; one host move per step (log entry 4). -/
def Obligations.LoadingFrameStartsRun : Prop :=
  ∀ (s : State) (t : Table) (p : List Byte) (e : Word) (irq : Bool), s.cfg.valid →
    s.phase ≠ .run → p.length ≤ s.cfg.inCap → s.hostMoves = loadMoves t p e irq →
    ∃ u, runFor (loadMoves t p e irq).length s = .next u ∧ JustStarted u ∧ u.flags = t ∧
      u.inLen.toNat = p.length ∧ u.expLen = e ∧ u.irqEn = irq ∧
      (∀ (j : Nat) (b : Byte), p[j]? = some b → inByte u j = b) ∧ u.outMem = s.outMem ∧
      u.cfg = s.cfg

/-- 30_encoding.md section 4: what the checks of the assembler are for. -/
def Obligations.AssembledTokensDecodeBack : Prop :=
  ∀ (t : Table) (bs : List Byte),
    (∀ k l : Nat, asmPat t k l = .ok bs →
      ∃ (i : Fin 9) (h m : Nibble), i.val = k ∧ m.toNat = l ∧ t[i].toNat = h.toNat ∧
        decode .token t bs = .ok (patternInstr i h m, [])) ∧
    (∀ len dist : Nat, asmBref t len dist = .ok bs →
      ∃ (h l : Nibble) (o : Byte), decode .token t bs = .ok (.bref h l o, []) ∧
        spelledLength h = len ∧ spelledDistance l o = dist)

/-- 60_exceptions.md section 4: instances share nothing. Their numbers are the model's (log entry 12). -/
def Obligations.InstancesShareNothing : Prop :=
  ∀ (k : Nat) (p q : Platform), platformStep k p = .next q →
    q.length = p.length ∧ (∀ j, j ≠ k → q[j]? = p[j]?) ∧
    (∀ s, p[k]? = some s → ∃ t, step s = .next t ∧ q[k]? = some t) ∧
    q.map State.engineId = p.map State.engineId ∧
    ∀ (c : Params) (n : Nat), ((platformReset c n).map State.engineId).Nodup

/-- 30_encoding.md sections 1 to 3: no bit of an encoding is dropped. -/
def Obligations.DecodeReadsBackEncode : Prop :=
  ∀ (t : Table) (i : Instr) (left : List Byte), i.WellFormed t →
    decode i.slot t (encode i ++ left) = .ok (i, left)

/-- 30_encoding.md sections 1 to 3: each word has one meaning in its slot. -/
def Obligations.EncodeReadsBackDecode : Prop :=
  ∀ (slot : Slot) (t : Table) (bytes left : List Byte) (i : Instr),
    decode slot t bytes = .ok (i, left) →
    i.WellFormed t ∧ i.slot = slot ∧ bytes = encode i ++ left

/-- R141 and R142. -/
def Obligations.LookupFindsLeastMatchingIndex : Prop :=
  ∀ (t : Table) (h : Nibble),
    (∀ i : Fin 9, lookup t h = some i ↔
      t[i] = h.setWidth 8 ∧ ∀ j : Fin 9, j < i → t[j] ≠ h.setWidth 8) ∧
    (lookup t h = none ↔ ∀ i : Fin 9, t[i] ≠ h.setWidth 8) ∧
    (∀ i : Fin 9, 0x0F < t[i].toNat → lookup t h ≠ some i) ∧
    lookup (Vector.replicate 9 0) h = if h = 0 then some 0 else none

/-- 44_backref.md section 1; that the distance is 1 to 4096 the spec marks as derived from the offset field. -/
def Obligations.BackrefFieldsSpellDistanceAndLength : Prop :=
  ∀ (h l : Nibble) (o b : Byte),
    (offsetField l o).toNat = 256 * l.toNat + o.toNat ∧
    distance l o = 4096 - (256 * l.toNat + o.toNat) ∧ 1 ≤ distance l o ∧ distance l o ≤ 4096 ∧
    runLength h = h.toNat + 3 ∧ 3 ≤ runLength h ∧ runLength h ≤ 18 ∧
    (highNibble b).toNat = b.toNat / 16 ∧ (lowNibble b).toNat = b.toNat % 16

/-- R78, and the worked examples of 41_command.md, 42_literal.md and 43_pattern.md. -/
def Obligations.SpecWordsDecodeAsTheSpecSays : Prop :=
  decode .token #v[0, 1, 2, 3, 4, 5, 6, 7, 8] [0x03] = .ok (.pat0 0x0 0x3, []) ∧
    decode .token #v[1, 2, 3, 4, 5, 6, 7, 8, 9] [0x0F, 0x00] = .ok (.bref 0x0 0xF 0x00, []) ∧
    (offsetField 0xF 0x00).toNat = 0xF00 ∧ distance 0xF 0x00 = 256 ∧ runLength 0x0 = 3 ∧
    decode .command #v[0, 1, 2, 3, 4, 5, 6, 7, 8] [0x80, 0x41] = .ok (.cmd 0x80, [0x41]) ∧
    decode .literal #v[0, 1, 2, 3, 4, 5, 6, 7, 8] [0xAB] = .ok (.lit 0xAB, []) ∧
    decode .token #v[0xF, 0xE, 0xD, 0xC, 0xB, 0xA, 9, 8, 7] [0xE3] = .ok (.pat1 0xE 0x3, [])
end

