-- ==== Sys2Proof/Laws/State.lean ====
section
/-! SUPPORT. What each update of the state does to each field: one lemma per field, true by
unfolding. -/

namespace Sys2Proof.Machine

@[simp] theorem appendByte_ip (b : Byte) (s : State) :
    (appendByte b s).ip = s.ip := rfl

@[simp] theorem appendByte_op (b : Byte) (s : State) :
    (appendByte b s).op = s.op + 1 := rfl

@[simp] theorem appendByte_cmd (b : Byte) (s : State) :
    (appendByte b s).cmd = s.cmd := rfl

@[simp] theorem appendByte_mask (b : Byte) (s : State) :
    (appendByte b s).mask = s.mask := rfl

@[simp] theorem appendByte_flags (b : Byte) (s : State) :
    (appendByte b s).flags = s.flags := rfl

@[simp] theorem appendByte_inLen (b : Byte) (s : State) :
    (appendByte b s).inLen = s.inLen := rfl

@[simp] theorem appendByte_expLen (b : Byte) (s : State) :
    (appendByte b s).expLen = s.expLen := rfl

@[simp] theorem appendByte_phase (b : Byte) (s : State) :
    (appendByte b s).phase = s.phase := rfl

@[simp] theorem appendByte_cause (b : Byte) (s : State) :
    (appendByte b s).cause = s.cause := rfl

@[simp] theorem appendByte_faultIp (b : Byte) (s : State) :
    (appendByte b s).faultIp = s.faultIp := rfl

@[simp] theorem appendByte_lenMatch (b : Byte) (s : State) :
    (appendByte b s).lenMatch = s.lenMatch := rfl

@[simp] theorem appendByte_irqEn (b : Byte) (s : State) :
    (appendByte b s).irqEn = s.irqEn := rfl

@[simp] theorem appendByte_inMem (b : Byte) (s : State) :
    (appendByte b s).inMem = s.inMem := rfl

@[simp] theorem appendByte_outMem (b : Byte) (s : State) :
    (appendByte b s).outMem = Memory.write s.outMem s.op.toNat b := rfl

@[simp] theorem appendByte_cfg (b : Byte) (s : State) :
    (appendByte b s).cfg = s.cfg := rfl

@[simp] theorem appendByte_draws (b : Byte) (s : State) :
    (appendByte b s).draws = s.draws := rfl

@[simp] theorem appendByte_hostMoves (b : Byte) (s : State) :
    (appendByte b s).hostMoves = s.hostMoves := rfl

@[simp] theorem appendByte_hostData (b : Byte) (s : State) :
    (appendByte b s).hostData = s.hostData := rfl

@[simp] theorem appendByte_endSeen (b : Byte) (s : State) :
    (appendByte b s).endSeen = s.endSeen := rfl

@[simp] theorem appendByte_engineId (b : Byte) (s : State) :
    (appendByte b s).engineId = s.engineId := rfl

@[simp] theorem completeUnit_ip (n : Nat) (s : State) :
    (completeUnit n s).ip = s.ip + BitVec.ofNat 32 n := rfl

@[simp] theorem completeUnit_op (n : Nat) (s : State) :
    (completeUnit n s).op = s.op := rfl

@[simp] theorem completeUnit_cmd (n : Nat) (s : State) :
    (completeUnit n s).cmd = s.cmd := rfl

@[simp] theorem completeUnit_mask (n : Nat) (s : State) :
    (completeUnit n s).mask = s.mask >>> 1 := rfl

@[simp] theorem completeUnit_flags (n : Nat) (s : State) :
    (completeUnit n s).flags = s.flags := rfl

@[simp] theorem completeUnit_inLen (n : Nat) (s : State) :
    (completeUnit n s).inLen = s.inLen := rfl

@[simp] theorem completeUnit_expLen (n : Nat) (s : State) :
    (completeUnit n s).expLen = s.expLen := rfl

@[simp] theorem completeUnit_phase (n : Nat) (s : State) :
    (completeUnit n s).phase = s.phase := rfl

@[simp] theorem completeUnit_cause (n : Nat) (s : State) :
    (completeUnit n s).cause = s.cause := rfl

@[simp] theorem completeUnit_faultIp (n : Nat) (s : State) :
    (completeUnit n s).faultIp = s.faultIp := rfl

@[simp] theorem completeUnit_lenMatch (n : Nat) (s : State) :
    (completeUnit n s).lenMatch = s.lenMatch := rfl

@[simp] theorem completeUnit_irqEn (n : Nat) (s : State) :
    (completeUnit n s).irqEn = s.irqEn := rfl

@[simp] theorem completeUnit_inMem (n : Nat) (s : State) :
    (completeUnit n s).inMem = s.inMem := rfl

@[simp] theorem completeUnit_outMem (n : Nat) (s : State) :
    (completeUnit n s).outMem = s.outMem := rfl

@[simp] theorem completeUnit_cfg (n : Nat) (s : State) :
    (completeUnit n s).cfg = s.cfg := rfl

@[simp] theorem completeUnit_draws (n : Nat) (s : State) :
    (completeUnit n s).draws = s.draws := rfl

@[simp] theorem completeUnit_hostMoves (n : Nat) (s : State) :
    (completeUnit n s).hostMoves = s.hostMoves := rfl

@[simp] theorem completeUnit_hostData (n : Nat) (s : State) :
    (completeUnit n s).hostData = s.hostData := rfl

@[simp] theorem completeUnit_endSeen (n : Nat) (s : State) :
    (completeUnit n s).endSeen = s.endSeen := rfl

@[simp] theorem completeUnit_engineId (n : Nat) (s : State) :
    (completeUnit n s).engineId = s.engineId := rfl

@[simp] theorem enterFault_ip (c : Cause) (s : State) :
    (enterFault c s).ip = s.ip := rfl

@[simp] theorem enterFault_op (c : Cause) (s : State) :
    (enterFault c s).op = s.op := rfl

@[simp] theorem enterFault_cmd (c : Cause) (s : State) :
    (enterFault c s).cmd = s.cmd := rfl

@[simp] theorem enterFault_mask (c : Cause) (s : State) :
    (enterFault c s).mask = s.mask := rfl

@[simp] theorem enterFault_flags (c : Cause) (s : State) :
    (enterFault c s).flags = s.flags := rfl

@[simp] theorem enterFault_inLen (c : Cause) (s : State) :
    (enterFault c s).inLen = s.inLen := rfl

@[simp] theorem enterFault_expLen (c : Cause) (s : State) :
    (enterFault c s).expLen = s.expLen := rfl

@[simp] theorem enterFault_phase (c : Cause) (s : State) :
    (enterFault c s).phase = .fault := rfl

@[simp] theorem enterFault_cause (c : Cause) (s : State) :
    (enterFault c s).cause = c := rfl

@[simp] theorem enterFault_faultIp (c : Cause) (s : State) :
    (enterFault c s).faultIp = s.ip := rfl

@[simp] theorem enterFault_lenMatch (c : Cause) (s : State) :
    (enterFault c s).lenMatch = s.lenMatch := rfl

@[simp] theorem enterFault_irqEn (c : Cause) (s : State) :
    (enterFault c s).irqEn = s.irqEn := rfl

@[simp] theorem enterFault_inMem (c : Cause) (s : State) :
    (enterFault c s).inMem = s.inMem := rfl

@[simp] theorem enterFault_outMem (c : Cause) (s : State) :
    (enterFault c s).outMem = s.outMem := rfl

@[simp] theorem enterFault_cfg (c : Cause) (s : State) :
    (enterFault c s).cfg = s.cfg := rfl

@[simp] theorem enterFault_draws (c : Cause) (s : State) :
    (enterFault c s).draws = s.draws := rfl

@[simp] theorem enterFault_hostMoves (c : Cause) (s : State) :
    (enterFault c s).hostMoves = s.hostMoves := rfl

@[simp] theorem enterFault_hostData (c : Cause) (s : State) :
    (enterFault c s).hostData = s.hostData := rfl

@[simp] theorem enterFault_endSeen (c : Cause) (s : State) :
    (enterFault c s).endSeen = s.endSeen := rfl

@[simp] theorem enterFault_engineId (c : Cause) (s : State) :
    (enterFault c s).engineId = s.engineId := rfl

@[simp] theorem clearRun_ip (s : State) :
    (clearRun s).ip = 0 := rfl

@[simp] theorem clearRun_op (s : State) :
    (clearRun s).op = 0 := rfl

@[simp] theorem clearRun_cmd (s : State) :
    (clearRun s).cmd = 0 := rfl

@[simp] theorem clearRun_mask (s : State) :
    (clearRun s).mask = 0 := rfl

@[simp] theorem clearRun_flags (s : State) :
    (clearRun s).flags = s.flags := rfl

@[simp] theorem clearRun_inLen (s : State) :
    (clearRun s).inLen = s.inLen := rfl

@[simp] theorem clearRun_expLen (s : State) :
    (clearRun s).expLen = s.expLen := rfl

@[simp] theorem clearRun_phase (s : State) :
    (clearRun s).phase = s.phase := rfl

@[simp] theorem clearRun_cause (s : State) :
    (clearRun s).cause = s.cause := rfl

@[simp] theorem clearRun_faultIp (s : State) :
    (clearRun s).faultIp = 0 := rfl

@[simp] theorem clearRun_lenMatch (s : State) :
    (clearRun s).lenMatch = false := rfl

@[simp] theorem clearRun_irqEn (s : State) :
    (clearRun s).irqEn = s.irqEn := rfl

@[simp] theorem clearRun_inMem (s : State) :
    (clearRun s).inMem = s.inMem := rfl

@[simp] theorem clearRun_outMem (s : State) :
    (clearRun s).outMem = s.outMem := rfl

@[simp] theorem clearRun_cfg (s : State) :
    (clearRun s).cfg = s.cfg := rfl

@[simp] theorem clearRun_draws (s : State) :
    (clearRun s).draws = s.draws := rfl

@[simp] theorem clearRun_hostMoves (s : State) :
    (clearRun s).hostMoves = s.hostMoves := rfl

@[simp] theorem clearRun_hostData (s : State) :
    (clearRun s).hostData = s.hostData := rfl

@[simp] theorem clearRun_endSeen (s : State) :
    (clearRun s).endSeen = false := rfl

@[simp] theorem clearRun_engineId (s : State) :
    (clearRun s).engineId = s.engineId := rfl

@[simp] theorem endRun_ip (s : State) :
    (endRun s).ip = s.ip := rfl

@[simp] theorem endRun_op (s : State) :
    (endRun s).op = s.op := rfl

@[simp] theorem endRun_cmd (s : State) :
    (endRun s).cmd = s.cmd := rfl

@[simp] theorem endRun_mask (s : State) :
    (endRun s).mask = s.mask := rfl

@[simp] theorem endRun_flags (s : State) :
    (endRun s).flags = s.flags := rfl

@[simp] theorem endRun_inLen (s : State) :
    (endRun s).inLen = s.inLen := rfl

@[simp] theorem endRun_expLen (s : State) :
    (endRun s).expLen = s.expLen := rfl

@[simp] theorem endRun_phase (s : State) :
    (endRun s).phase = .done := rfl

@[simp] theorem endRun_cause (s : State) :
    (endRun s).cause = s.cause := rfl

@[simp] theorem endRun_faultIp (s : State) :
    (endRun s).faultIp = s.faultIp := rfl

@[simp] theorem endRun_lenMatch (s : State) :
    (endRun s).lenMatch = lengthMatches s := rfl

@[simp] theorem endRun_irqEn (s : State) :
    (endRun s).irqEn = s.irqEn := rfl

@[simp] theorem endRun_inMem (s : State) :
    (endRun s).inMem = s.inMem := rfl

@[simp] theorem endRun_outMem (s : State) :
    (endRun s).outMem = s.outMem := rfl

@[simp] theorem endRun_cfg (s : State) :
    (endRun s).cfg = s.cfg := rfl

@[simp] theorem endRun_draws (s : State) :
    (endRun s).draws = s.draws := rfl

@[simp] theorem endRun_hostMoves (s : State) :
    (endRun s).hostMoves = s.hostMoves := rfl

@[simp] theorem endRun_hostData (s : State) :
    (endRun s).hostData = s.hostData := rfl

@[simp] theorem endRun_endSeen (s : State) :
    (endRun s).endSeen = s.endSeen := rfl

@[simp] theorem endRun_engineId (s : State) :
    (endRun s).engineId = s.engineId := rfl

@[simp] theorem resetEngine_ip (s : State) :
    (resetEngine s).ip = 0 := rfl

@[simp] theorem resetEngine_op (s : State) :
    (resetEngine s).op = 0 := rfl

@[simp] theorem resetEngine_cmd (s : State) :
    (resetEngine s).cmd = 0 := rfl

@[simp] theorem resetEngine_mask (s : State) :
    (resetEngine s).mask = 0 := rfl

@[simp] theorem resetEngine_flags (s : State) :
    (resetEngine s).flags = Vector.replicate 9 0 := rfl

@[simp] theorem resetEngine_inLen (s : State) :
    (resetEngine s).inLen = 0 := rfl

@[simp] theorem resetEngine_expLen (s : State) :
    (resetEngine s).expLen = 0 := rfl

@[simp] theorem resetEngine_phase (s : State) :
    (resetEngine s).phase = .idle := rfl

@[simp] theorem resetEngine_cause (s : State) :
    (resetEngine s).cause = .none := rfl

@[simp] theorem resetEngine_faultIp (s : State) :
    (resetEngine s).faultIp = 0 := rfl

@[simp] theorem resetEngine_lenMatch (s : State) :
    (resetEngine s).lenMatch = false := rfl

@[simp] theorem resetEngine_irqEn (s : State) :
    (resetEngine s).irqEn = false := rfl

@[simp] theorem resetEngine_inMem (s : State) :
    (resetEngine s).inMem = [] := rfl

@[simp] theorem resetEngine_outMem (s : State) :
    (resetEngine s).outMem = [] := rfl

@[simp] theorem resetEngine_cfg (s : State) :
    (resetEngine s).cfg = s.cfg := rfl

@[simp] theorem resetEngine_draws (s : State) :
    (resetEngine s).draws = s.draws + 1 := rfl

@[simp] theorem resetEngine_hostMoves (s : State) :
    (resetEngine s).hostMoves = s.hostMoves := rfl

@[simp] theorem resetEngine_hostData (s : State) :
    (resetEngine s).hostData = s.hostData := rfl

@[simp] theorem resetEngine_endSeen (s : State) :
    (resetEngine s).endSeen = false := rfl

@[simp] theorem resetEngine_engineId (s : State) :
    (resetEngine s).engineId = s.engineId := rfl

@[simp] theorem readCsr_ip (r : Csr) (s : State) :
    (readCsr r s).ip = s.ip := rfl

@[simp] theorem readCsr_op (r : Csr) (s : State) :
    (readCsr r s).op = s.op := rfl

@[simp] theorem readCsr_cmd (r : Csr) (s : State) :
    (readCsr r s).cmd = s.cmd := rfl

@[simp] theorem readCsr_mask (r : Csr) (s : State) :
    (readCsr r s).mask = s.mask := rfl

@[simp] theorem readCsr_flags (r : Csr) (s : State) :
    (readCsr r s).flags = s.flags := rfl

@[simp] theorem readCsr_inLen (r : Csr) (s : State) :
    (readCsr r s).inLen = s.inLen := rfl

@[simp] theorem readCsr_expLen (r : Csr) (s : State) :
    (readCsr r s).expLen = s.expLen := rfl

@[simp] theorem readCsr_phase (r : Csr) (s : State) :
    (readCsr r s).phase = s.phase := rfl

@[simp] theorem readCsr_cause (r : Csr) (s : State) :
    (readCsr r s).cause = s.cause := rfl

@[simp] theorem readCsr_faultIp (r : Csr) (s : State) :
    (readCsr r s).faultIp = s.faultIp := rfl

@[simp] theorem readCsr_lenMatch (r : Csr) (s : State) :
    (readCsr r s).lenMatch = s.lenMatch := rfl

@[simp] theorem readCsr_irqEn (r : Csr) (s : State) :
    (readCsr r s).irqEn = s.irqEn := rfl

@[simp] theorem readCsr_inMem (r : Csr) (s : State) :
    (readCsr r s).inMem = s.inMem := rfl

@[simp] theorem readCsr_outMem (r : Csr) (s : State) :
    (readCsr r s).outMem = s.outMem := rfl

@[simp] theorem readCsr_cfg (r : Csr) (s : State) :
    (readCsr r s).cfg = s.cfg := rfl

@[simp] theorem readCsr_draws (r : Csr) (s : State) :
    (readCsr r s).draws = s.draws := rfl

@[simp] theorem readCsr_hostMoves (r : Csr) (s : State) :
    (readCsr r s).hostMoves = s.hostMoves := rfl

@[simp] theorem readCsr_hostData (r : Csr) (s : State) :
    (readCsr r s).hostData = csrValue r s := rfl

@[simp] theorem readCsr_endSeen (r : Csr) (s : State) :
    (readCsr r s).endSeen = (s.endSeen || showsEnd r s) := rfl

@[simp] theorem readCsr_engineId (r : Csr) (s : State) :
    (readCsr r s).engineId = s.engineId := rfl

@[simp] theorem noteEnd_ip (s : State) :
    (noteEnd s).ip = s.ip := rfl

@[simp] theorem noteEnd_op (s : State) :
    (noteEnd s).op = s.op := rfl

@[simp] theorem noteEnd_cmd (s : State) :
    (noteEnd s).cmd = s.cmd := rfl

@[simp] theorem noteEnd_mask (s : State) :
    (noteEnd s).mask = s.mask := rfl

@[simp] theorem noteEnd_flags (s : State) :
    (noteEnd s).flags = s.flags := rfl

@[simp] theorem noteEnd_inLen (s : State) :
    (noteEnd s).inLen = s.inLen := rfl

@[simp] theorem noteEnd_expLen (s : State) :
    (noteEnd s).expLen = s.expLen := rfl

@[simp] theorem noteEnd_phase (s : State) :
    (noteEnd s).phase = s.phase := rfl

@[simp] theorem noteEnd_cause (s : State) :
    (noteEnd s).cause = s.cause := rfl

@[simp] theorem noteEnd_faultIp (s : State) :
    (noteEnd s).faultIp = s.faultIp := rfl

@[simp] theorem noteEnd_lenMatch (s : State) :
    (noteEnd s).lenMatch = s.lenMatch := rfl

@[simp] theorem noteEnd_irqEn (s : State) :
    (noteEnd s).irqEn = s.irqEn := rfl

@[simp] theorem noteEnd_inMem (s : State) :
    (noteEnd s).inMem = s.inMem := rfl

@[simp] theorem noteEnd_outMem (s : State) :
    (noteEnd s).outMem = s.outMem := rfl

@[simp] theorem noteEnd_cfg (s : State) :
    (noteEnd s).cfg = s.cfg := rfl

@[simp] theorem noteEnd_draws (s : State) :
    (noteEnd s).draws = s.draws := rfl

@[simp] theorem noteEnd_hostMoves (s : State) :
    (noteEnd s).hostMoves = s.hostMoves := rfl

@[simp] theorem noteEnd_hostData (s : State) :
    (noteEnd s).hostData = s.hostData := rfl

@[simp] theorem noteEnd_endSeen (s : State) :
    (noteEnd s).endSeen = (s.endSeen || s.phase.ended) := rfl

@[simp] theorem noteEnd_engineId (s : State) :
    (noteEnd s).engineId = s.engineId := rfl

@[simp] theorem twoBytesAppended_ip (b0 b1 : Byte) (s : State) :
    (twoBytesAppended b0 b1 s).ip = s.ip + 1 := rfl

@[simp] theorem twoBytesAppended_op (b0 b1 : Byte) (s : State) :
    (twoBytesAppended b0 b1 s).op = s.op + 2 := rfl

@[simp] theorem twoBytesAppended_cmd (b0 b1 : Byte) (s : State) :
    (twoBytesAppended b0 b1 s).cmd = s.cmd := rfl

@[simp] theorem twoBytesAppended_mask (b0 b1 : Byte) (s : State) :
    (twoBytesAppended b0 b1 s).mask = s.mask >>> 1 := rfl

@[simp] theorem twoBytesAppended_flags (b0 b1 : Byte) (s : State) :
    (twoBytesAppended b0 b1 s).flags = s.flags := rfl

@[simp] theorem twoBytesAppended_inLen (b0 b1 : Byte) (s : State) :
    (twoBytesAppended b0 b1 s).inLen = s.inLen := rfl

@[simp] theorem twoBytesAppended_expLen (b0 b1 : Byte) (s : State) :
    (twoBytesAppended b0 b1 s).expLen = s.expLen := rfl

@[simp] theorem twoBytesAppended_phase (b0 b1 : Byte) (s : State) :
    (twoBytesAppended b0 b1 s).phase = s.phase := rfl

@[simp] theorem twoBytesAppended_cause (b0 b1 : Byte) (s : State) :
    (twoBytesAppended b0 b1 s).cause = s.cause := rfl

@[simp] theorem twoBytesAppended_faultIp (b0 b1 : Byte) (s : State) :
    (twoBytesAppended b0 b1 s).faultIp = s.faultIp := rfl

@[simp] theorem twoBytesAppended_lenMatch (b0 b1 : Byte) (s : State) :
    (twoBytesAppended b0 b1 s).lenMatch = s.lenMatch := rfl

@[simp] theorem twoBytesAppended_irqEn (b0 b1 : Byte) (s : State) :
    (twoBytesAppended b0 b1 s).irqEn = s.irqEn := rfl

@[simp] theorem twoBytesAppended_inMem (b0 b1 : Byte) (s : State) :
    (twoBytesAppended b0 b1 s).inMem = s.inMem := rfl

@[simp] theorem twoBytesAppended_outMem (b0 b1 : Byte) (s : State) :
    (twoBytesAppended b0 b1 s).outMem = Memory.write (Memory.write s.outMem s.op.toNat b0) (s.op + 1).toNat b1 := rfl

@[simp] theorem twoBytesAppended_cfg (b0 b1 : Byte) (s : State) :
    (twoBytesAppended b0 b1 s).cfg = s.cfg := rfl

@[simp] theorem twoBytesAppended_draws (b0 b1 : Byte) (s : State) :
    (twoBytesAppended b0 b1 s).draws = s.draws := rfl

@[simp] theorem twoBytesAppended_hostMoves (b0 b1 : Byte) (s : State) :
    (twoBytesAppended b0 b1 s).hostMoves = s.hostMoves := rfl

@[simp] theorem twoBytesAppended_hostData (b0 b1 : Byte) (s : State) :
    (twoBytesAppended b0 b1 s).hostData = s.hostData := rfl

@[simp] theorem twoBytesAppended_endSeen (b0 b1 : Byte) (s : State) :
    (twoBytesAppended b0 b1 s).endSeen = s.endSeen := rfl

@[simp] theorem twoBytesAppended_engineId (b0 b1 : Byte) (s : State) :
    (twoBytesAppended b0 b1 s).engineId = s.engineId := rfl

@[simp] theorem atFault_ip (c : Cause) (s : State) :
    (atFault c s).ip = s.ip := rfl

@[simp] theorem atFault_op (c : Cause) (s : State) :
    (atFault c s).op = s.op := rfl

@[simp] theorem atFault_cmd (c : Cause) (s : State) :
    (atFault c s).cmd = s.cmd := rfl

@[simp] theorem atFault_mask (c : Cause) (s : State) :
    (atFault c s).mask = s.mask := rfl

@[simp] theorem atFault_flags (c : Cause) (s : State) :
    (atFault c s).flags = s.flags := rfl

@[simp] theorem atFault_inLen (c : Cause) (s : State) :
    (atFault c s).inLen = s.inLen := rfl

@[simp] theorem atFault_expLen (c : Cause) (s : State) :
    (atFault c s).expLen = s.expLen := rfl

@[simp] theorem atFault_phase (c : Cause) (s : State) :
    (atFault c s).phase = .fault := rfl

@[simp] theorem atFault_cause (c : Cause) (s : State) :
    (atFault c s).cause = c := rfl

@[simp] theorem atFault_faultIp (c : Cause) (s : State) :
    (atFault c s).faultIp = s.ip := rfl

@[simp] theorem atFault_lenMatch (c : Cause) (s : State) :
    (atFault c s).lenMatch = s.lenMatch := rfl

@[simp] theorem atFault_irqEn (c : Cause) (s : State) :
    (atFault c s).irqEn = s.irqEn := rfl

@[simp] theorem atFault_inMem (c : Cause) (s : State) :
    (atFault c s).inMem = s.inMem := rfl

@[simp] theorem atFault_outMem (c : Cause) (s : State) :
    (atFault c s).outMem = s.outMem := rfl

@[simp] theorem atFault_cfg (c : Cause) (s : State) :
    (atFault c s).cfg = s.cfg := rfl

@[simp] theorem atFault_draws (c : Cause) (s : State) :
    (atFault c s).draws = s.draws := rfl

@[simp] theorem atFault_hostMoves (c : Cause) (s : State) :
    (atFault c s).hostMoves = s.hostMoves := rfl

@[simp] theorem atFault_hostData (c : Cause) (s : State) :
    (atFault c s).hostData = s.hostData := rfl

@[simp] theorem atFault_endSeen (c : Cause) (s : State) :
    (atFault c s).endSeen = s.endSeen := rfl

@[simp] theorem atFault_engineId (c : Cause) (s : State) :
    (atFault c s).engineId = s.engineId := rfl

end Sys2Proof.Machine
end

