-- ==== Sys2Proof/Laws/Host.lean ====
section
/-! SUPPORT. What a host access can do, said once: the access that answered, and the state it gave. -/

namespace Sys2Proof.Machine

/-- Everything START can do: refuse, or begin a run (R110). -/
theorem startRun_cases (s : State) :
    (s.cfg.inCap < s.inLen.toNat ∧
      startRun s = { clearRun s with cause := .badInLen, phase := .fault }) ∨
    (s.inLen.toNat ≤ s.cfg.inCap ∧ startRun s = { clearRun s with cause := .none, phase := .run }) := by
  unfold startRun
  split
  · exact .inl ⟨‹_›, rfl⟩
  · exact .inr ⟨by omega, rfl⟩

/-- Everything a register write can do: start a run, acknowledge one, write irq_en, a length or a table
entry, or nothing (R35, R37). -/
theorem writeCsr_cases (r : Csr) (w : Word) (s : State) :
    (r = .ctrl ∧ w.getLsbD 0 = true ∧ s.phase ≠ .run ∧
      writeCsr r w s = startRun { s with irqEn := w.getLsbD 1 }) ∨
    (r = .ctrl ∧ ¬ (w.getLsbD 0 = true ∧ s.phase ≠ .run) ∧ s.phase.ended = true ∧
      writeCsr r w s = { s with irqEn := w.getLsbD 1, phase := .idle }) ∨
    (r = .ctrl ∧ ¬ (w.getLsbD 0 = true ∧ s.phase ≠ .run) ∧
      writeCsr r w s = { s with irqEn := w.getLsbD 1 }) ∨
    (r ≠ .ctrl ∧ s.phase ≠ .run ∧ ∃ n e f,
      writeCsr r w s = { s with inLen := n, expLen := e, flags := f }) ∨
    (r ≠ .ctrl ∧ writeCsr r w s = s) := by
  cases r
  case ctrl =>
    by_cases h : w.getLsbD 0 = true ∧ s.phase ≠ .run
    · exact .inl ⟨rfl, h.1, h.2, by rw [writeCsr, writeCtrl, if_pos h]⟩
    · by_cases h2 : w.getLsbD 2 = true
      · by_cases h3 : s.phase.ended = true
        · exact .inr (.inl ⟨rfl, h, h3, by
            rw [writeCsr, writeCtrl, if_neg h, if_pos h2, acknowledge, if_pos h3]⟩)
        · exact .inr (.inr (.inl ⟨rfl, h, by
            rw [writeCsr, writeCtrl, if_neg h, if_pos h2, acknowledge, if_neg h3]⟩))
      · exact .inr (.inr (.inl ⟨rfl, h, by rw [writeCsr, writeCtrl, if_neg h, if_neg h2]⟩))
  case inLen =>
    by_cases h : s.phase = .run
    · exact .inr (.inr (.inr (.inr ⟨by simp, if_pos h⟩)))
    · exact .inr (.inr (.inr (.inl ⟨by simp, h, _, _, _, if_neg h⟩)))
  case expLen =>
    by_cases h : s.phase = .run
    · exact .inr (.inr (.inr (.inr ⟨by simp, if_pos h⟩)))
    · exact .inr (.inr (.inr (.inl ⟨by simp, h, _, _, _, if_neg h⟩)))
  case flag i =>
    by_cases h : s.phase = .run
    · exact .inr (.inr (.inr (.inr ⟨by simp, if_pos h⟩)))
    · exact .inr (.inr (.inr (.inl ⟨by simp, h, _, _, _, if_neg h⟩)))
  all_goals exact .inr (.inr (.inr (.inr ⟨by simp, rfl⟩)))

/-- A CSR access that answers is an aligned 32-bit one inside the window (R50, R58). -/
theorem csrAccess_next {width off : Nat} {u t : State} (h : csrAccess width off u = .next t) :
    width = 4 ∧ off < csrWindow ∧ off % 4 = 0 ∧ t = u := by
  unfold csrAccess at h
  split at h
  · cases h
  · split at h
    · rename_i ha
      simp only [csrAligned, Bool.and_eq_true, beq_iff_eq] at ha
      cases h
      exact ⟨ha.1, by omega, ha.2, rfl⟩
    · cases h

/-- Every host access that answers, with the state it gives (R50, R58, R230, R241, R243). -/
theorem hostAccess_next {a : HostAccess} {s t : State} (h : hostAccess a s = .next t) :
    (∃ off w, a = .csrWrite 4 off w ∧ off < csrWindow ∧ off % 4 = 0 ∧
      t = writeCsr (csrAt off) w s) ∨
    (∃ off, a = .csrRead 4 off ∧ off < csrWindow ∧ off % 4 = 0 ∧ t = readCsr (csrAt off) s) ∨
    (∃ x b, a = .inWrite x b ∧ s.phase ≠ .run ∧ x < s.cfg.inCap ∧
      t = { s with inMem := Memory.write s.inMem x b }) ∨
    (∃ x, a = .inRead x ∧ s.phase ≠ .run ∧ x < s.cfg.inCap ∧
      t = { s with hostData := (inByte s x).setWidth 32 }) ∨
    (∃ x b, a = .outWrite x b ∧ s.phase ≠ .run ∧ x < s.cfg.outCap ∧
      t = { s with outMem := Memory.write s.outMem x b }) ∨
    (∃ x, a = .outRead x ∧ s.phase ≠ .run ∧ x < s.cfg.outCap ∧ s.endSeen = true ∧
      x < s.op.toNat ∧ t = { s with hostData := (outByte s x).setWidth 32 }) ∨
    (a = .reset ∧ t = resetEngine s) := by
  cases a with
  | csrWrite width off w =>
    obtain ⟨rfl, h1, h2, rfl⟩ := csrAccess_next h
    exact .inl ⟨off, w, rfl, h1, h2, rfl⟩
  | csrRead width off =>
    obtain ⟨rfl, h1, h2, rfl⟩ := csrAccess_next h
    exact .inr (.inl ⟨off, rfl, h1, h2, rfl⟩)
  | inWrite x b =>
    simp only [hostAccess] at h
    split at h
    · cases h
    · split at h <;> cases h
      exact .inr (.inr (.inl ⟨x, b, rfl, ‹_›, by omega, rfl⟩))
  | inRead x =>
    simp only [hostAccess] at h
    split at h
    · cases h
    · split at h <;> cases h
      exact .inr (.inr (.inr (.inl ⟨x, rfl, ‹_›, by omega, rfl⟩)))
  | outWrite x b =>
    simp only [hostAccess] at h
    split at h
    · cases h
    · split at h <;> cases h
      exact .inr (.inr (.inr (.inr (.inl ⟨x, b, rfl, ‹_›, by omega, rfl⟩))))
  | outRead x =>
    simp only [hostAccess] at h
    split at h
    · cases h
    · split at h
      · cases h
      · split at h
        · cases h
        · split at h <;> cases h
          exact .inr (.inr (.inr (.inr (.inr (.inl
            ⟨x, rfl, ‹_›, by omega, by simpa using ‹¬ s.endSeen = false›, by omega, rfl⟩)))))
  | reset => cases h; exact .inr (.inr (.inr (.inr (.inr (.inr ⟨rfl, rfl⟩)))))

/-- An access that neither writes nor resets changes nothing of the engine (R56, R217). -/
theorem hostAccess_read {a : HostAccess} {s t : State} (ha : a.changes = false)
    (h : hostAccess a s = .next t) :
    t = { s with hostData := t.hostData, endSeen := t.endSeen } := by
  rcases hostAccess_next h with ⟨_, _, rfl, _⟩ | ⟨_, rfl, _, _, rfl⟩ | ⟨_, _, rfl, _⟩ |
    ⟨_, rfl, _, _, rfl⟩ | ⟨_, _, rfl, _⟩ | ⟨_, rfl, _, _, _, _, rfl⟩ | ⟨rfl, _⟩
  all_goals first | rfl | simp [HostAccess.changes] at ha

/-- No access changes the parameters, the engine's number or the moves to come. -/
theorem hostAccess_keeps {a : HostAccess} {s t : State} (h : hostAccess a s = .next t) :
    t.cfg = s.cfg ∧ t.engineId = s.engineId ∧ t.hostMoves = s.hostMoves := by
  rcases hostAccess_next h with ⟨off, w, -, -, -, rfl⟩ | ⟨_, -, -, -, rfl⟩ | ⟨_, _, -, -, -, rfl⟩ |
    ⟨_, -, -, -, rfl⟩ | ⟨_, _, -, -, -, rfl⟩ | ⟨_, -, -, -, -, -, rfl⟩ | ⟨-, rfl⟩
  · rcases writeCsr_cases (csrAt off) w s with ⟨-, -, -, e⟩ | ⟨-, -, -, e⟩ | ⟨-, -, e⟩ |
      ⟨-, -, _, _, _, e⟩ | ⟨-, e⟩ <;> rw [e] <;>
      try exact ⟨rfl, rfl, rfl⟩
    rcases startRun_cases { s with irqEn := w.getLsbD 1 } with ⟨-, e⟩ | ⟨-, e⟩ <;> rw [e] <;>
      exact ⟨rfl, rfl, rfl⟩
  all_goals exact ⟨rfl, rfl, rfl⟩

end Sys2Proof.Machine
end

