-- ==== Sys2Proof/Laws/Memory.lean ====
section
/-! SUPPORT. The laws of a memory: a read after a write, and the canonical form that every write
keeps. -/

namespace Sys2Proof.Machine

@[simp] theorem Memory.read_nil (a : Nat) : Memory.read [] a = none := rfl

/-- A read after a write to the same address gives the byte written. -/
@[simp] theorem Memory.read_write_same (m : Memory) (a : Nat) (b : Byte) :
    Memory.read (Memory.write m a b) a = some b := by
  induction m with
  | nil => simp [Memory.write, Memory.read]
  | cons c r ih =>
    obtain ⟨x, v⟩ := c
    simp only [Memory.write]
    split
    · simp [Memory.read]
    · split
      · simp [Memory.read]
      · rename_i h
        simp [Memory.read, Ne.symm h, ih]

/-- A write leaves every other address alone. -/
theorem Memory.read_write_other (m : Memory) {a x : Nat} (b : Byte) (h : x ≠ a) :
    Memory.read (Memory.write m a b) x = Memory.read m x := by
  induction m with
  | nil => simp [Memory.write, Memory.read, Ne.symm h]
  | cons c r ih =>
    obtain ⟨y, v⟩ := c
    simp only [Memory.write]
    split
    · simp [Memory.read, Ne.symm h]
    · split
      · rename_i e
        subst e
        simp [Memory.read, Ne.symm h]
      · simp [Memory.read, ih]

/-- The two laws as one. -/
theorem Memory.read_write (m : Memory) (a x : Nat) (b : Byte) :
    Memory.read (Memory.write m a b) x = if x = a then some b else Memory.read m x := by
  split
  · rename_i h
    rw [h, Memory.read_write_same]
  · rename_i h
    exact Memory.read_write_other m b h

/-- The cells of a memory after a write: the one written, and cells that were there. -/
theorem Memory.mem_write {m : Memory} {a : Nat} {b : Byte} {c : Host.Cell}
    (h : c ∈ Memory.write m a b) : c = (a, b) ∨ c ∈ m := by
  induction m with
  | nil => simpa [Memory.write] using h
  | cons d r ih =>
    obtain ⟨x, v⟩ := d
    simp only [Memory.write] at h
    split at h
    · simpa using h
    · split at h
      · rcases List.mem_cons.1 h with h | h
        · exact .inl h
        · exact .inr (List.mem_cons_of_mem _ h)
      · rcases List.mem_cons.1 h with h | h
        · exact .inr (by simp [h])
        · rcases ih h with h | h
          · exact .inl h
          · exact .inr (List.mem_cons_of_mem _ h)

/-- A write inside a space keeps every cell inside it. -/
theorem Memory.write_bound {m : Memory} {a n : Nat} {b : Byte} (ha : a < n)
    (h : ∀ c ∈ m, c.1 < n) : ∀ c ∈ Memory.write m a b, c.1 < n := by
  intro c hc
  rcases Memory.mem_write hc with rfl | hc
  · exact ha
  · exact h c hc

/-- The empty memory is in canonical form. -/
@[simp] theorem Memory.wf_nil : Memory.wf [] := by simp [Memory.wf]

/-- A memory with a first cell is in canonical form when the rest is and lies above it. -/
theorem Memory.wf_cons {x : Nat} {v : Byte} {r : Memory} :
    Memory.wf ((x, v) :: r) ↔ (∀ c ∈ r, x < c.1) ∧ Memory.wf r := by
  simp [Memory.wf, List.pairwise_cons]

/-- Every write keeps the canonical form. -/
theorem Memory.write_wf {m : Memory} (a : Nat) (b : Byte) (h : Memory.wf m) :
    Memory.wf (Memory.write m a b) := by
  induction m with
  | nil => simp [Memory.write, Memory.wf]
  | cons d r ih =>
    obtain ⟨x, v⟩ := d
    obtain ⟨hx, hr⟩ := Memory.wf_cons.1 h
    simp only [Memory.write]
    split
    · rename_i hlt
      refine Memory.wf_cons.2 ⟨?_, h⟩
      intro c hc
      rcases List.mem_cons.1 hc with rfl | hc
      · exact hlt
      · exact hlt.trans (hx c hc)
    · split
      · rename_i he
        subst he
        exact Memory.wf_cons.2 ⟨hx, hr⟩
      · refine Memory.wf_cons.2 ⟨?_, ih hr⟩
        intro c hc
        rcases Memory.mem_write hc with rfl | hc
        · omega
        · exact hx c hc

/-- A written address stays written. -/
theorem Memory.isSome_write {m : Memory} {a x : Nat} {b : Byte}
    (h : (Memory.read m x).isSome) : (Memory.read (Memory.write m a b) x).isSome := by
  rw [Memory.read_write]
  split <;> simp_all

/-- A written byte reads the same whatever the reset it was drawn under. -/
theorem outByte_of_read {s : State} {a : Nat} {b : Byte} (h : Memory.read s.outMem a = some b) :
    outByte s a = b := by simp [outByte, h]

/-- The same of the input memory. -/
theorem inByte_of_read {s : State} {a : Nat} {b : Byte} (h : Memory.read s.inMem a = some b) :
    inByte s a = b := by simp [inByte, h]

end Sys2Proof.Machine
end

