-- ==== Sys2Proof/Laws/Ops.lean ====
section
/-! SUPPORT. What each shared operation over the output can do: appending, the copy loop, a unit of one
byte, a back-reference. -/

namespace Sys2Proof.Machine

/-- The cursor after an append that does not wrap. -/
theorem appendByte_op_toNat {b : Byte} {s : State} (h : s.op.toNat + 1 < 2 ^ 32) :
    (appendByte b s).op.toNat = s.op.toNat + 1 := by
  simp only [appendByte_op, BitVec.toNat_add]
  simpa using Nat.mod_eq_of_lt h

/-- An appended byte reads back at the old `op`; every other byte is as before. -/
theorem outByte_appendByte (b : Byte) (s : State) (a : Nat) :
    outByte (appendByte b s) a = if a = s.op.toNat then b else outByte s a := by
  simp only [outByte, appendByte_outMem, appendByte_draws, appendByte_engineId, Memory.read_write]
  split <;> simp

/-- Appending writes the output memory and `op`, and nothing else. -/
theorem appendByte_shape (b : Byte) (s : State) :
    appendByte b s = { s with
      outMem := (appendByte b s).outMem, op := s.op + BitVec.ofNat 32 1 } := rfl

/-- Two shapes in a row. -/
theorem shape_trans {s t u : State} {m n : Nat}
    (h : t = { s with outMem := t.outMem, op := s.op + BitVec.ofNat 32 m })
    (k : u = { t with outMem := u.outMem, op := t.op + BitVec.ofNat 32 n }) :
    u = { s with outMem := u.outMem, op := s.op + BitVec.ofNat 32 (m + n) } := by
  rw [k, h]
  simp [BitVec.ofNat_add, BitVec.add_assoc]

/-- Appending a list writes the output memory and adds its length to `op`. -/
theorem appendBytes_shape (bs : List Byte) (s : State) :
    appendBytes bs s = { s with
      outMem := (appendBytes bs s).outMem, op := s.op + BitVec.ofNat 32 bs.length } := by
  induction bs generalizing s with
  | nil => simp [appendBytes]
  | cons b bs ih =>
    have := shape_trans (appendByte_shape b s) (ih (appendByte b s))
    simpa [appendBytes, Nat.add_comm] using this

/-- The copy loop writes the output memory and adds its length to `op`. -/
theorem copyBack_shape (d n : Nat) (s : State) :
    copyBack d n s = { s with
      outMem := (copyBack d n s).outMem, op := s.op + BitVec.ofNat 32 n } := by
  induction n generalizing s with
  | zero => simp [copyBack]
  | succ n ih =>
    have := shape_trans (appendByte_shape (outByte s (s.op.toNat - d)) s)
      (ih (appendByte (outByte s (s.op.toNat - d)) s))
    simpa [copyBack, Nat.add_comm] using this

/-- The output bytes depend on the output memory, the draw and the engine alone. -/
theorem outByte_congr {s t : State} (hm : t.outMem = s.outMem) (hd : t.draws = s.draws)
    (hk : t.engineId = s.engineId) (a : Nat) : outByte t a = outByte s a := by
  simp [outByte, hm, hd, hk]

@[simp] theorem appendBytes_draws (bs : List Byte) (s : State) :
    (appendBytes bs s).draws = s.draws := by rw [appendBytes_shape]

@[simp] theorem appendBytes_engineId (bs : List Byte) (s : State) :
    (appendBytes bs s).engineId = s.engineId := by rw [appendBytes_shape]

@[simp] theorem copyBack_engineId (d n : Nat) (s : State) :
    (copyBack d n s).engineId = s.engineId := by rw [copyBack_shape]

@[simp] theorem copyBack_draws (d n : Nat) (s : State) : (copyBack d n s).draws = s.draws := by
  rw [copyBack_shape]

/-- The cursor after a number of appends that do not wrap. -/
theorem op_toNat_add {x : Word} {n : Nat} (h : x.toNat + n < 2 ^ 32) :
    (x + BitVec.ofNat 32 n).toNat = x.toNat + n := by
  rw [BitVec.toNat_add, BitVec.toNat_ofNat, Nat.mod_eq_of_lt (by omega : n < 2 ^ 32),
    Nat.mod_eq_of_lt h]

/-- Everything the copy loop does to the bytes of the output: those outside the new ones are as
before, and each new one equals the byte `d` before it (R178). -/
theorem copyBack_bytes {d n : Nat} {s : State} (hd : 1 ≤ d) (hop : d ≤ s.op.toNat)
    (hn : s.op.toNat + n < 2 ^ 32) :
    (∀ a, a < s.op.toNat ∨ s.op.toNat + n ≤ a → outByte (copyBack d n s) a = outByte s a) ∧
    (∀ i < n, outByte (copyBack d n s) (s.op.toNat + i) =
      outByte (copyBack d n s) (s.op.toNat + i - d)) := by
  induction n generalizing s with
  | zero => simp [copyBack]
  | succ n ih =>
    have hop1 : (appendByte (outByte s (s.op.toNat - d)) s).op.toNat = s.op.toNat + 1 :=
      appendByte_op_toNat (by omega)
    obtain ⟨keep, copied⟩ := @ih (appendByte (outByte s (s.op.toNat - d)) s) (by omega) (by omega)
    rw [hop1] at keep copied
    simp only [copyBack]
    refine ⟨fun a ha => ?_, fun i hi => ?_⟩
    · rw [keep a (by omega), outByte_appendByte, if_neg (by omega)]
    · cases i with
      | zero =>
        rw [keep _ (by omega), keep _ (by omega), outByte_appendByte, outByte_appendByte,
          if_pos (by omega), if_neg (by omega)]
        rfl
      | succ i =>
        have := copied i (by omega)
        rwa [show s.op.toNat + (i + 1) = s.op.toNat + 1 + i by omega]

/-- Appending keeps the canonical form of the output, its bound and what is written in it. -/
theorem appendByte_outMem_facts {b : Byte} {s : State} (hwf : Memory.wf s.outMem)
    (hb : ∀ c ∈ s.outMem, c.1 < s.cfg.outCap) (hop : s.op.toNat + 1 ≤ s.cfg.outCap)
    (hcap : s.cfg.outCap < 2 ^ 32) (hw : ∀ a < s.op.toNat, (Memory.read s.outMem a).isSome) :
    Memory.wf (appendByte b s).outMem ∧ (∀ c ∈ (appendByte b s).outMem, c.1 < s.cfg.outCap) ∧
      ∀ a < (appendByte b s).op.toNat, (Memory.read (appendByte b s).outMem a).isSome := by
  refine ⟨Memory.write_wf _ _ hwf, Memory.write_bound (by omega) hb, fun a ha => ?_⟩
  rw [appendByte_op_toNat (by omega)] at ha
  rw [appendByte_outMem, Memory.read_write]
  split
  · rfl
  · exact hw a (by omega)

/-- The same for the copy loop. -/
theorem copyBack_outMem_facts {d n : Nat} {s : State} (hwf : Memory.wf s.outMem)
    (hb : ∀ c ∈ s.outMem, c.1 < s.cfg.outCap) (hop : s.op.toNat + n ≤ s.cfg.outCap)
    (hcap : s.cfg.outCap < 2 ^ 32) (hw : ∀ a < s.op.toNat, (Memory.read s.outMem a).isSome) :
    Memory.wf (copyBack d n s).outMem ∧ (∀ c ∈ (copyBack d n s).outMem, c.1 < s.cfg.outCap) ∧
      ∀ a < (copyBack d n s).op.toNat, (Memory.read (copyBack d n s).outMem a).isSome := by
  induction n generalizing s with
  | zero => exact ⟨hwf, hb, hw⟩
  | succ n ih =>
    obtain ⟨h1, h2, h3⟩ := appendByte_outMem_facts (b := outByte s (s.op.toNat - d)) hwf hb
      (by omega) hcap hw
    exact ih h1 h2 (by rw [appendByte_op_toNat (by omega)]; simp only [appendByte_cfg]; omega) hcap h3

/-- The same for a list of bytes. -/
theorem appendBytes_outMem_facts {bs : List Byte} {s : State} (hwf : Memory.wf s.outMem)
    (hb : ∀ c ∈ s.outMem, c.1 < s.cfg.outCap) (hop : s.op.toNat + bs.length ≤ s.cfg.outCap)
    (hcap : s.cfg.outCap < 2 ^ 32) (hw : ∀ a < s.op.toNat, (Memory.read s.outMem a).isSome) :
    Memory.wf (appendBytes bs s).outMem ∧
      (∀ c ∈ (appendBytes bs s).outMem, c.1 < s.cfg.outCap) ∧
      ∀ a < (appendBytes bs s).op.toNat, (Memory.read (appendBytes bs s).outMem a).isSome := by
  induction bs generalizing s with
  | nil => exact ⟨hwf, hb, hw⟩
  | cons b bs ih =>
    simp only [List.length_cons] at hop
    obtain ⟨h1, h2, h3⟩ := appendByte_outMem_facts (b := b) hwf hb (by omega) hcap hw
    exact ih h1 h2 (by rw [appendByte_op_toNat (by omega)]; simp only [appendByte_cfg]; omega) hcap h3

/-- Appending leaves every byte outside the appended ones as before. -/
theorem appendBytes_keeps {bs : List Byte} {s : State} (hn : s.op.toNat + bs.length < 2 ^ 32)
    {a : Nat} (ha : a < s.op.toNat ∨ s.op.toNat + bs.length ≤ a) :
    outByte (appendBytes bs s) a = outByte s a := by
  induction bs generalizing s with
  | nil => rfl
  | cons b bs ih =>
    simp only [List.length_cons] at hn ha
    have hop : (appendByte b s).op.toNat = s.op.toNat + 1 := appendByte_op_toNat (by omega)
    rw [appendBytes, ih (by omega) (by omega), outByte_appendByte, if_neg (by omega)]

/-- Everything a unit of one payload byte can do: fault with nothing written, or append its bytes
and complete (R131, R143, R150, R203). -/
theorem emitUnit_cases (bs : List Byte) (s : State) :
    (s.cfg.outCap < s.op.toNat + bs.length ∧ emitUnit bs s = atFault .outputOverflow s) ∨
    (s.op.toNat + bs.length ≤ s.cfg.outCap ∧
      emitUnit bs s = { s with
        outMem := (appendBytes bs s).outMem
        op := s.op + BitVec.ofNat 32 bs.length
        ip := s.ip + 1
        mask := s.mask >>> 1 }) := by
  unfold emitUnit
  split
  · exact .inl ⟨‹_›, rfl⟩
  · refine .inr ⟨by omega, ?_⟩
    conv_lhs => rw [appendBytes_shape]
    rfl

/-- Everything a back-reference can do: one of the three faults in their order with nothing written,
or the copy (R178, R207). -/
theorem copyUnit_cases (len d : Nat) (s : State) :
    (s.inLen.toNat ≤ s.ip.toNat + 1 ∧ copyUnit len d s = atFault .truncatedBackref s) ∨
    (s.ip.toNat + 1 < s.inLen.toNat ∧ s.op.toNat < d ∧
      copyUnit len d s = atFault .backrefUnderflow s) ∨
    (s.ip.toNat + 1 < s.inLen.toNat ∧ d ≤ s.op.toNat ∧ s.cfg.outCap < s.op.toNat + len ∧
      copyUnit len d s = atFault .outputOverflow s) ∨
    (s.ip.toNat + 1 < s.inLen.toNat ∧ d ≤ s.op.toNat ∧ s.op.toNat + len ≤ s.cfg.outCap ∧
      copyUnit len d s = { s with
        outMem := (copyBack d len s).outMem
        op := s.op + BitVec.ofNat 32 len
        ip := s.ip + 2
        mask := s.mask >>> 1 }) := by
  unfold copyUnit
  split
  · exact .inl ⟨‹_›, rfl⟩
  · split
    · exact .inr (.inl ⟨by omega, ‹_›, rfl⟩)
    · split
      · exact .inr (.inr (.inl ⟨by omega, by omega, ‹_›, rfl⟩))
      · refine .inr (.inr (.inr ⟨by omega, by omega, by omega, ?_⟩))
        conv_lhs => rw [copyBack_shape]
        rfl

/-- The distance of a back-reference as the spec spells it (R173, R174). -/
theorem distance_eq_spelled (l : Nibble) (o : Byte) : distance l o = spelledDistance l o := by
  simp only [distance, spelledDistance, offsetField, BitVec.toNat_append]
  have := o.isLt
  rw [← Nat.shiftLeft_add_eq_or_of_lt (by omega), Nat.shiftLeft_eq]
  omega

/-- A distance is 1 to 4096. -/
theorem spelledDistance_range (l : Nibble) (o : Byte) :
    1 ≤ spelledDistance l o ∧ spelledDistance l o ≤ 4096 := by
  have := l.isLt
  have := o.isLt
  simp only [spelledDistance]
  omega

end Sys2Proof.Machine
end

