-- ==== Sys2Proof/Laws/PerInstr.lean ====
section
/-! SUPPORT. A statement about every unit as syntax, one lemma per constructor: its encoding is not
empty, and is two bytes exactly for a back-reference (spec/30_encoding.md R71, R72). -/

namespace Sys2Proof.Laws.EncodedLength

/-- One byte for every unit but a back-reference, which has two (R71). -/
def Statement (i : Instr) : Prop :=
  (encode i).length = match i with
    | .bref _ _ _ => 2
    | _ => 1

theorem cmd (c : Byte) : Statement (.cmd c) := rfl
theorem lit (d : Byte) : Statement (.lit d) := rfl
theorem pat0 (h l : Nibble) : Statement (.pat0 h l) := rfl
theorem pat1 (h l : Nibble) : Statement (.pat1 h l) := rfl
theorem pat2 (h l : Nibble) : Statement (.pat2 h l) := rfl
theorem pat3 (h l : Nibble) : Statement (.pat3 h l) := rfl
theorem pat4 (h l : Nibble) : Statement (.pat4 h l) := rfl
theorem pat5 (h l : Nibble) : Statement (.pat5 h l) := rfl
theorem pat6 (h l : Nibble) : Statement (.pat6 h l) := rfl
theorem pat7 (h l : Nibble) : Statement (.pat7 h l) := rfl
theorem pat8 (h l : Nibble) : Statement (.pat8 h l) := rfl
theorem bref (h l : Nibble) (o : Byte) : Statement (.bref h l o) := rfl

end Sys2Proof.Laws.EncodedLength
end

