-- ==== Sys2Proof/Laws/Step.lean ====
section
/-! SUPPORT. What a step can do, said once: whose turn it is, what the engine's step finds at `ip`, and
what each unit answers. -/

namespace Sys2Proof.Machine

/-- With no host move to come, a step in RUN is the engine's. -/
theorem step_of_engineTurn {s : State} (h : EngineTurn s) : step s = engineStep s := by
  simp [step, turn, h.1, h.2]

/-- A host access next on the script is the step. -/
theorem step_of_access {s : State} {a : HostAccess} {rest : List HostMove}
    (h : s.hostMoves = .access a :: rest) : step s = hostAccess a { s with hostMoves := rest } := by
  simp [step, turn, h]

/-- Everything a step can be: the engine's, on the state or on the state with a waiting move taken
off; a host access; or, outside RUN, nothing, or a waiting move taken off, where one for the end of
a run notes what the host has seen. -/
theorem step_cases (s : State) :
    (s.phase = .run ∧
      ((s.hostMoves = [] ∧ step s = engineStep s) ∨
        (∃ rest, s.hostMoves = .awaitEnd :: rest ∧ step s = engineStep s) ∨
        ∃ rest, s.hostMoves = .letStep :: rest ∧
          step s = engineStep { s with hostMoves := rest })) ∨
    (∃ a rest, s.hostMoves = .access a :: rest ∧
      step s = hostAccess a { s with hostMoves := rest }) ∨
    (s.phase ≠ .run ∧
      ((s.hostMoves = [] ∧ step s = .next s) ∨
        (∃ rest, s.hostMoves = .letStep :: rest ∧ step s = .next { s with hostMoves := rest }) ∨
        ∃ rest, s.hostMoves = .awaitEnd :: rest ∧
          step s = .next (noteEnd { s with hostMoves := rest }))) := by
  by_cases h : s.phase = .run
  · rcases hm : s.hostMoves with _ | ⟨m, rest⟩
    · exact .inl ⟨h, .inl ⟨rfl, step_of_engineTurn ⟨hm, h⟩⟩⟩
    · cases m with
      | access a => exact .inr (.inl ⟨a, rest, rfl, step_of_access hm⟩)
      | letStep => exact .inl ⟨h, .inr (.inr ⟨rest, rfl, by simp [step, turn, hm, h]⟩)⟩
      | awaitEnd => exact .inl ⟨h, .inr (.inl ⟨rest, rfl, by simp [step, turn, hm, h]⟩)⟩
  · rcases hm : s.hostMoves with _ | ⟨m, rest⟩
    · exact .inr (.inr ⟨h, .inl ⟨rfl, by simp [step, turn, hm, h]⟩⟩)
    · cases m with
      | access a => exact .inr (.inl ⟨a, rest, rfl, step_of_access hm⟩)
      | letStep => exact .inr (.inr ⟨h, .inr (.inl ⟨rest, rfl, by simp [step, turn, hm, h]⟩)⟩)
      | awaitEnd => exact .inr (.inr ⟨h, .inr (.inr ⟨rest, rfl, by simp [step, turn, hm, h]⟩)⟩)

/-- Every pattern unit emits two bytes. -/
theorem exec_patternInstr (k : Fin 9) (h l : Nibble) (s : State) :
    ∃ b0 b1 : Byte, exec (patternInstr k h l) s = .next (emitUnit [b0, b1] s) := by
  fin_cases k <;> exact ⟨_, _, rfl⟩

/-- Everything a unit answers: CMD's record, bytes emitted, or a back-reference. -/
theorem exec_cases (i : Instr) (s : State) :
    (∃ c, i = .cmd c ∧ exec i s = .next { s with cmd := c, ip := s.ip + 1, mask := 0x80 }) ∨
    (∃ d, i = .lit d ∧ exec i s = .next (emitUnit [d] s)) ∨
    (∃ k h l b0 b1, i = patternInstr k h l ∧ exec i s = .next (emitUnit [b0, b1] s)) ∨
    (∃ h l o, i = .bref h l o ∧
      exec i s = .next (copyUnit (runLength h) (distance l o) s)) := by
  cases i with
  | cmd c => exact .inl ⟨c, rfl, rfl⟩
  | lit d => exact .inr (.inl ⟨d, rfl, rfl⟩)
  | pat0 h l => exact .inr (.inr (.inl ⟨0, h, l, _, _, rfl, rfl⟩))
  | pat1 h l => exact .inr (.inr (.inl ⟨1, h, l, _, _, rfl, rfl⟩))
  | pat2 h l => exact .inr (.inr (.inl ⟨2, h, l, _, _, rfl, rfl⟩))
  | pat3 h l => exact .inr (.inr (.inl ⟨3, h, l, _, _, rfl, rfl⟩))
  | pat4 h l => exact .inr (.inr (.inl ⟨4, h, l, _, _, rfl, rfl⟩))
  | pat5 h l => exact .inr (.inr (.inl ⟨5, h, l, _, _, rfl, rfl⟩))
  | pat6 h l => exact .inr (.inr (.inl ⟨6, h, l, _, _, rfl, rfl⟩))
  | pat7 h l => exact .inr (.inr (.inl ⟨7, h, l, _, _, rfl, rfl⟩))
  | pat8 h l => exact .inr (.inr (.inl ⟨8, h, l, _, _, rfl, rfl⟩))
  | bref h l o => exact .inr (.inr (.inr ⟨h, l, o, rfl, rfl⟩))

/-- The three slots by `mask` and the command bit (R111, R113). -/
theorem selectSlot_cases (cmd mask : Byte) :
    (mask = 0 ∧ selectSlot cmd mask = .command) ∨
    (mask ≠ 0 ∧ cmd &&& mask ≠ 0 ∧ selectSlot cmd mask = .literal) ∨
    (mask ≠ 0 ∧ cmd &&& mask = 0 ∧ selectSlot cmd mask = .token) := by
  unfold selectSlot
  split
  · exact .inl ⟨‹_›, rfl⟩
  · split
    · exact .inr (.inl ⟨‹_›, ‹_›, rfl⟩)
    · rename_i h
      exact .inr (.inr ⟨‹_›, not_not.1 h, rfl⟩)

/-- Everything an engine step can be: the fault of states no run reaches, END, a command byte, a
literal, a pattern, a complete back-reference, or a truncated one (R111 to R114, R140, R176). -/
theorem engineStep_cases (s : State) :
    (payloadInside s = false ∧ engineStep s = .fault .payloadOutsideInput) ∨
    (s.ip.toNat = s.inLen.toNat ∧ s.inLen.toNat ≤ s.cfg.inCap ∧ engineStep s = .next (endRun s)) ∨
    (InPayload s ∧ s.mask = 0 ∧ engineStep s = exec (.cmd (inByte s s.ip.toNat)) s) ∨
    (InPayload s ∧ s.mask ≠ 0 ∧ s.cmd &&& s.mask ≠ 0 ∧
      engineStep s = exec (.lit (inByte s s.ip.toNat)) s) ∨
    (InPayload s ∧ s.mask ≠ 0 ∧ s.cmd &&& s.mask = 0 ∧
      ∃ k, lookup s.flags (highNibble (inByte s s.ip.toNat)) = some k ∧
        engineStep s = exec (patternInstr k (highNibble (inByte s s.ip.toNat))
          (lowNibble (inByte s s.ip.toNat))) s) ∨
    (InPayload s ∧ s.mask ≠ 0 ∧ s.cmd &&& s.mask = 0 ∧
      lookup s.flags (highNibble (inByte s s.ip.toNat)) = none ∧
      s.ip.toNat + 1 < s.inLen.toNat ∧
      engineStep s = exec (.bref (highNibble (inByte s s.ip.toNat))
        (lowNibble (inByte s s.ip.toNat)) (inByte s (s.ip.toNat + 1))) s) ∨
    (InPayload s ∧ s.mask ≠ 0 ∧ s.cmd &&& s.mask = 0 ∧
      lookup s.flags (highNibble (inByte s s.ip.toNat)) = none ∧
      s.ip.toNat + 1 = s.inLen.toNat ∧
      engineStep s = .next (atFault .truncatedBackref s)) := by
  by_cases hin : payloadInside s = true
  · have hle : s.ip.toNat ≤ s.inLen.toNat ∧ s.inLen.toNat ≤ s.cfg.inCap := by
      simpa [payloadInside] using hin
    simp only [engineStep, if_pos hin]
    by_cases hend : s.ip.toNat < s.inLen.toNat
    · have hp : InPayload s := ⟨hend, hle.2⟩
      obtain ⟨rest, hb⟩ : ∃ rest, payloadBytes s = inByte s s.ip.toNat :: rest := by
        unfold payloadBytes; split
        · exact ⟨_, rfl⟩
        · exact ⟨[], by simp⟩
      rcases selectSlot_cases s.cmd s.mask with ⟨hm, hs⟩ | ⟨hm, hc, hs⟩ | ⟨hm, hc, hs⟩
      · exact .inr (.inr (.inl ⟨hp, hm, by simp [hs, hb, decode]⟩))
      · exact .inr (.inr (.inr (.inl ⟨hp, hm, hc, by simp [hs, hb, decode]⟩)))
      · cases hl : lookup s.flags (highNibble (inByte s s.ip.toNat)) with
        | some k =>
          exact .inr (.inr (.inr (.inr (.inl ⟨hp, hm, hc, k, rfl, by
            simp [hs, hb, decode, decodeToken, hl]⟩))))
        | none =>
          by_cases h2 : s.ip.toNat + 1 < s.inLen.toNat
          · exact .inr (.inr (.inr (.inr (.inr (.inl ⟨hp, hm, hc, rfl, h2, by
              simp [hs, payloadBytes, h2, decode, decodeToken, hl]⟩)))))
          · exact .inr (.inr (.inr (.inr (.inr (.inr ⟨hp, hm, hc, rfl, by omega, by
              simp [hs, payloadBytes, h2, hend, decode, decodeToken, hl, stopDecoding,
                enterFault, atFault]⟩)))))
    · refine .inr (.inl ⟨by omega, hle.2, ?_⟩)
      have h2 : ¬ s.ip.toNat + 1 < s.inLen.toNat := by omega
      simp [payloadBytes, h2, hend, decode, stopDecoding]
  · exact .inl ⟨by simpa using hin, by simp [engineStep, hin]⟩

end Sys2Proof.Machine
end

