-- ==== Sys2Proof/Laws/Run.lean ====
section
/-! SUPPORT. Runs of several steps. -/

namespace Sys2Proof.Machine

@[simp] theorem runFor_zero (s : State) : runFor 0 s = .next s := rfl

/-- A machine's run by its first step. -/
theorem core_run_succ (M : Host.Core) (k : Nat) (s : M.State) :
    M.run (k + 1) s = match M.step s with
      | .next t => M.run k t
      | .fault r => .fault r
      | .refused r => .refused r := rfl

/-- A run whose first step answers a next state goes on from it. -/
theorem runFor_of_next {s t : State} (k : Nat) (h : step s = .next t) :
    runFor (k + 1) s = runFor k t := by
  have hc : Host.Core.step Sys2Proof.core s = .next t := h
  have e := core_run_succ Sys2Proof.core k s
  rw [hc] at e
  exact e

/-- A run that answers a next state after its first step answered one for it. -/
theorem runFor_inv {s u : State} {k : Nat} (h : runFor (k + 1) s = .next u) :
    ∃ t, step s = .next t ∧ runFor k t = .next u := by
  have e := core_run_succ Sys2Proof.core k s
  have e2 : Host.Core.run Sys2Proof.core (k + 1) s = .next u := h
  rw [e2] at e
  cases hs : Host.Core.step Sys2Proof.core s with
  | next t => rw [hs] at e; exact ⟨t, hs, e.symm⟩
  | fault r => rw [hs] at e; cases e
  | refused r => rw [hs] at e; cases e

/-- Outside RUN, with no host move to come, nothing ever changes (R217). -/
theorem runFor_quiet {s : State} (h : s.phase ≠ .run) (hm : s.hostMoves = []) (k : Nat) :
    runFor k s = .next s := by
  induction k with
  | zero => rfl
  | succ k ih => rw [runFor_of_next k (t := s) (by simp [step, turn, h, hm]), ih]

end Sys2Proof.Machine
end

