-- ==== Sys2Proof/Tests/Slice0.lean ====
section
/-! SUPPORT. Tests: well-formedness, words written out from the spec's encodings, single steps on the
vectors of spec/95_test_vectors.md, and for every statement with hypotheses a state that meets
them. -/

namespace Sys2Proof.Tests

open Sys2Proof.Machine

/-- T1, T2, T3 and TZ of spec/95_test_vectors.md section 0. -/
def t1 : Table := #v[0, 1, 2, 3, 4, 5, 6, 7, 8]
def t2 : Table := #v[0xF, 0xE, 0xD, 0xC, 0xB, 0xA, 9, 8, 7]
def t3 : Table := #v[1, 2, 3, 4, 5, 6, 7, 8, 9]
def tz : Table := #v[0, 0, 0, 0, 0, 0, 0, 0, 0]

/-- Bytes at consecutive addresses. -/
def cells (a : Nat) (bytes : List Byte) : Memory :=
  match bytes with
  | [] => []
  | b :: rest => (a, b) :: cells (a + 1) rest

/-- Parameters: 16 bytes of `IN` and `cap` bytes of `OUT`. -/
def caps (cap : Nat) : Params := ⟨16, cap, .highFirst⟩

/-- An engine in RUN at `ip` with this table, payload, output so far, command byte and mask. -/
def running (t : Table) (payload out : List Byte) (cap ip : Nat) (c m : Byte) : State :=
  { State.resetWith (caps cap) 0 0 with
    flags := t
    inLen := BitVec.ofNat 32 payload.length
    inMem := cells 0 payload
    op := BitVec.ofNat 32 out.length
    outMem := cells 0 out
    ip := BitVec.ofNat 32 ip
    cmd := c
    mask := m
    phase := .run }

/-- A state that is not running, whose host makes the access `a` next. -/
def asking (a : HostAccess) : State :=
  { State.resetWith (caps 8) 0 0 with hostMoves := [.access a] }

/-- The host's next access in a state. -/
def asks (a : HostAccess) (s : State) : State := { s with hostMoves := [.access a] }

/-- What R19 observes of a next state, with `cmd` and `mask`. -/
def seen (o : Host.Outcome State Fault Refusal) : Option (Observation × Byte × Byte) :=
  (nextOf o).map fun t => (observe t, t.cmd, t.mask)

/-- What the host reads next. -/
def reads (off : Nat) (s : State) : Option Word :=
  (nextOf (step (asks (.csrRead 4 off) s))).map State.hostData

/-! Well-formedness: an ill-formed term for each check (R75, R77). -/

theorem test_wf_cmd_lit : (Instr.cmd 0x80).WellFormed tz ∧ (Instr.lit 0x41).WellFormed tz := by
  decide
theorem test_wf_pat0 : (Instr.pat0 0 3).WellFormed t1 ∧ ¬ (Instr.pat0 1 3).WellFormed t1 := by decide
theorem test_wf_pat1 : (Instr.pat1 1 3).WellFormed t1 ∧ ¬ (Instr.pat1 2 3).WellFormed t1 := by decide
theorem test_wf_pat2 : (Instr.pat2 2 3).WellFormed t1 ∧ ¬ (Instr.pat2 3 3).WellFormed t1 := by decide
theorem test_wf_pat3 : (Instr.pat3 3 3).WellFormed t1 ∧ ¬ (Instr.pat3 4 3).WellFormed t1 := by decide
theorem test_wf_pat4 : (Instr.pat4 4 3).WellFormed t1 ∧ ¬ (Instr.pat4 5 3).WellFormed t1 := by decide
theorem test_wf_pat5 : (Instr.pat5 5 3).WellFormed t1 ∧ ¬ (Instr.pat5 6 3).WellFormed t1 := by decide
theorem test_wf_pat6 : (Instr.pat6 6 3).WellFormed t1 ∧ ¬ (Instr.pat6 7 3).WellFormed t1 := by decide
theorem test_wf_pat7 : (Instr.pat7 7 3).WellFormed t1 ∧ ¬ (Instr.pat7 8 3).WellFormed t1 := by decide
theorem test_wf_pat8 : (Instr.pat8 8 3).WellFormed t1 ∧ ¬ (Instr.pat8 9 3).WellFormed t1 := by decide
theorem test_wf_bref : (Instr.bref 9 0xF 0xFF).WellFormed t1 ∧
    ¬ (Instr.bref 8 0xF 0xFF).WellFormed t1 := by decide
/-- V-LKP-6: the later of two equal entries is unreachable. -/
theorem test_wf_duplicate : (Instr.pat0 5 7).WellFormed (Vector.replicate 9 5) ∧
    ¬ (Instr.pat1 5 7).WellFormed (Vector.replicate 9 5) := by decide

/-! Words written out from the formats of R71, one per constructor, with the spec's examples. -/

/-- R112's example: command byte 1000 0000. -/
theorem test_decode_cmd : decode .command t1 [0b10000000, 0x41] = .ok (.cmd 0x80, [0x41]) := rfl
/-- R131's example: literal byte 1010 1011. -/
theorem test_decode_lit : decode .literal t1 [0b10101011] = .ok (.lit 0xAB, []) := rfl
/-- E1: 0000 0011 under T1. -/
theorem test_decode_pat0 : decode .token t1 [0b00000011] = .ok (.pat0 0 3, []) := rfl
/-- R150's example and P2: 1110 0011 under T2. -/
theorem test_decode_pat1 : decode .token t2 [0b11100011] = .ok (.pat1 0xE 3, []) := rfl
/-- V-LKP-11: 0010 0010 under a table whose first two entries match no nibble. -/
theorem test_decode_pat2 :
    decode .token #v[0x10, 0x21, 2, 3, 4, 5, 6, 7, 8] [0b00100010] = .ok (.pat2 2 2, []) := rfl
/-- V-LKP-1: 0011 0011 under T1. -/
theorem test_decode_pat3 : decode .token t1 [0b00110011] = .ok (.pat3 3 3, []) := rfl
/-- V-PAT: PAT4 under T2 is `((0xF - 4) << 4) | l`. -/
theorem test_decode_pat4 : decode .token t2 [0b10110001] = .ok (.pat4 0xB 1, []) := rfl
/-- P2: 1010 0000 under T2. -/
theorem test_decode_pat5 : decode .token t2 [0b10100000] = .ok (.pat5 0xA 0, []) := rfl
/-- V-PAT: PAT6 under T1 is `(6 << 4) | l`. -/
theorem test_decode_pat6 : decode .token t1 [0b01101111] = .ok (.pat6 6 0xF, []) := rfl
/-- V-PAT: PAT7 under T2. -/
theorem test_decode_pat7 : decode .token t2 [0b10001110] = .ok (.pat7 8 0xE, []) := rfl
/-- P3: 0111 1010 under T2. -/
theorem test_decode_pat8 : decode .token t2 [0b01111010] = .ok (.pat8 7 0xA, []) := rfl
/-- The field decode checks of V-BREF: 1010 0101, 0101 1010 under T3. -/
theorem test_decode_bref : decode .token t3 [0b10100101, 0b01011010, 0x77] =
    .ok (.bref 10 5 0x5A, [0x77]) ∧ (offsetField 5 0x5A).toNat = 0x55A ∧
    distance 5 0x5A = 2726 ∧ runLength 10 = 13 := by decide
/-- `00 00`: the largest distance; `FF FF`: the smallest distance and the largest length. -/
theorem test_bref_ranges : distance 0 0 = 4096 ∧ distance 0xF 0xFF = 1 ∧ runLength 15 = 18 := by
  decide
/-- V-BREF-9: a back-reference token with no byte after it. -/
theorem test_decode_truncated : decode .token t3 [0x0F] = .error (.truncatedBackref 0 0xF) := rfl
/-- The same byte by slot and table (R72). -/
theorem test_same_byte_three_units : decode .command t1 [0x0F] = .ok (.cmd 0x0F, []) ∧
    decode .literal t1 [0x0F] = .ok (.lit 0x0F, []) ∧
    decode .token t1 [0x0F] = .ok (.pat0 0 0xF, []) := ⟨rfl, rfl, rfl⟩
/-- Table words (log entry 9). -/
theorem test_table_words : decodeTableWord 8 0x80 = some (.cmd 0x80) ∧
    decodeTableWord 16 0xFE3F = some (.bref 3 0xF 0xFE) := by decide
/-- A placed word is fetched by the next step (log entry 9). -/
theorem test_placed_command :
    (nextOf (step (State.reset.withFetchWord 8 0xC5))).map (fun t => (t.cmd, t.mask, t.ip)) =
      some (0xC5, 0x80, 1) := by decide
theorem test_placed_backref :
    (nextOf (step (State.reset.withFetchWord 16 0xFF0F))).map (fun t => (t.phase, t.cause)) =
      some (.fault, .backrefUnderflow) := by decide

/-! Single steps on the spec's vectors. -/

/-- V-CMD-7, step 1. -/
theorem test_step_cmd : seen (step (running t1 [0x80, 0xAB] [] 8 0 0 0)) =
    some (⟨.run, .none, 0, 1, 0, false, []⟩, 0x80, 0x80) := by decide
/-- R131's example. -/
theorem test_step_lit : seen (step (running t1 [0x80, 0xAB] [] 8 1 0x80 0x80)) =
    some (⟨.run, .none, 0, 2, 1, false, [0xAB]⟩, 0x80, 0x40) := by decide
/-- V-LIT-5: the output is full. -/
theorem test_step_lit_overflow :
    seen (step (running t1 [0xFF, 1, 2, 3] [1, 2] 2 3 0xFF 0x20)) =
      some (⟨.fault, .outputOverflow, 3, 3, 2, false, [1, 2]⟩, 0xFF, 0x20) := by decide
/-- V-CMD-7, the last step: END in the middle of a group. -/
theorem test_step_end : seen (step (running t1 [0x80, 0xAB] [0xAB] 8 2 0x80 0x40)) =
    some (⟨.done, .none, 0, 2, 1, false, [0xAB]⟩, 0x80, 0x40) := by decide
/-- V-CMD-1: the empty payload, with the expected length met. -/
theorem test_step_end_empty : seen (step (running t1 [] [] 8 0 0 0)) =
    some (⟨.done, .none, 0, 0, 0, true, []⟩, 0, 0) := by decide
/-- E1. -/
theorem test_step_pat0 : seen (step (running t1 [0, 0x03] [] 8 1 0 0x80)) =
    some (⟨.run, .none, 0, 2, 2, false, [0x33, 0x33]⟩, 0, 0x40) := by decide
/-- E9: PAT1 at l = 15 wraps. -/
theorem test_step_pat1 : seen (step (running t2 [0, 0xEF] [] 8 1 0 0x80)) =
    some (⟨.run, .none, 0, 2, 2, false, [0xF0, 0x00]⟩, 0, 0x40) := by decide
/-- V-PAT, l = 0. -/
theorem test_step_pat2 : seen (step (running t2 [0, 0xD0] [] 8 1 0 0x80)) =
    some (⟨.run, .none, 0, 2, 2, false, [0x0F, 0x00]⟩, 0, 0x40) := by decide
/-- V-PAT, l = 0. -/
theorem test_step_pat3 : seen (step (running t2 [0, 0xC0] [] 8 1 0 0x80)) =
    some (⟨.run, .none, 0, 2, 2, false, [0x00, 0xF0]⟩, 0, 0x40) := by decide
/-- V-PAT, l = 0. -/
theorem test_step_pat4 : seen (step (running t2 [0, 0xB0] [] 8 1 0 0x80)) =
    some (⟨.run, .none, 0, 2, 2, false, [0x00, 0x0F]⟩, 0, 0x40) := by decide
/-- E9: PAT5 at l = 0 wraps. -/
theorem test_step_pat5 : seen (step (running t2 [0, 0xA0] [] 8 1 0 0x80)) =
    some (⟨.run, .none, 0, 2, 2, false, [0x0F, 0xFF]⟩, 0, 0x40) := by decide
/-- V-PAT, l = 15. -/
theorem test_step_pat6 : seen (step (running t2 [0, 0x9F] [] 8 1 0 0x80)) =
    some (⟨.run, .none, 0, 2, 2, false, [0xF0, 0xFF]⟩, 0, 0x40) := by decide
/-- V-PAT, l = 15. -/
theorem test_step_pat7 : seen (step (running t2 [0, 0x8F] [] 8 1 0 0x80)) =
    some (⟨.run, .none, 0, 2, 2, false, [0xFF, 0x0F]⟩, 0, 0x40) := by decide
/-- V-PAT, l = 15. -/
theorem test_step_pat8 : seen (step (running t2 [0, 0x7F] [] 8 1 0 0x80)) =
    some (⟨.run, .none, 0, 2, 2, false, [0xFF, 0xF0]⟩, 0, 0x40) := by decide
/-- P2 under LOW_FIRST: PAT1 with l = 3 gives 43 44. -/
theorem test_low_first : arithBytes .lowFirst 1 3 = [0x43, 0x44] := by decide
/-- V-PAT-F1: two bytes do not fit, and none is written. -/
theorem test_step_pattern_overflow : seen (step (running t1 [0x80, 0x11, 0x05] [0x11] 2 2 0x80 0x40)) =
    some (⟨.fault, .outputOverflow, 2, 2, 1, false, [0x11]⟩, 0x80, 0x40) := by decide
/-- V-BREF-3: an overlapping copy. -/
theorem test_step_bref : seen (step (running t3 [0xC0, 1, 2, 0x0F, 0xFE] [1, 2] 8 3 0xC0 0x20)) =
    some (⟨.run, .none, 0, 5, 5, false, [1, 2, 1, 2, 1]⟩, 0xC0, 0x10) := by decide
/-- V-BREF-7: the distance is one more than the output. -/
theorem test_step_underflow :
    seen (step (running t3 [0xE0, 0xA, 0xB, 0xC, 0x0F, 0xFC] [0xA, 0xB, 0xC] 8 4 0xE0 0x10)) =
      some (⟨.fault, .backrefUnderflow, 4, 4, 3, false, [0xA, 0xB, 0xC]⟩, 0xE0, 0x10) := by decide
/-- V-BREF-10: truncated comes before underflow. -/
theorem test_step_truncated : seen (step (running t3 [0, 0x0F] [] 8 1 0 0x80)) =
    some (⟨.fault, .truncatedBackref, 1, 1, 0, false, []⟩, 0, 0x80) := by decide
/-- V-BREF-13: underflow comes before overflow. -/
theorem test_step_underflow_first :
    seen (step (running t3 [0x80, 0x41, 0xFF, 0xF0] [0x41] 3 2 0x80 0x40)) =
      some (⟨.fault, .backrefUnderflow, 2, 2, 1, false, [0x41]⟩, 0x80, 0x40) := by decide
/-- V-BREF-11: the copy does not fit, and no byte of it is written. -/
theorem test_step_copy_overflow :
    seen (step (running t3 [0x80, 0x41, 0x0F, 0xFF] [0x41] 3 2 0x80 0x40)) =
      some (⟨.fault, .outputOverflow, 2, 2, 1, false, [0x41]⟩, 0x80, 0x40) := by decide

/-! The host's side. -/

/-- V-START-1: N = 3 does not fit in an `IN` of 2 bytes. -/
theorem test_start_refused :
    seen (step { asking (.csrWrite 4 0 1) with inLen := 3, cfg := ⟨2, 8, .highFirst⟩ }) =
      some (⟨.fault, .badInLen, 0, 0, 0, false, []⟩, 0, 0) := by decide
/-- V-START-2: N = 2 does. -/
theorem test_start_runs :
    seen (step { asking (.csrWrite 4 0 1) with inLen := 2, cfg := ⟨2, 8, .highFirst⟩ }) =
      some (⟨.run, .none, 0, 0, 0, false, []⟩, 0, 0) := by decide
/-- V-CSR-4, V-CSR-5: STATUS after an empty run, without and with the interrupt enabled. -/
theorem test_status_done :
    reads 4 { State.resetWith (caps 8) 0 0 with phase := .done, lenMatch := true } = some 0x6 ∧
    reads 4 { State.resetWith (caps 8) 0 0 with phase := .done, lenMatch := true, irqEn := true } =
      some 0xE := by decide
/-- V-CSR-6: IRQ_EN and ACK in one write. -/
theorem test_acknowledge :
    (nextOf (step { asking (.csrWrite 4 0 6) with phase := .done, lenMatch := true })).map
      (fun t => (t.phase, statusWord t, csrValue .ctrl t)) = some (.idle, 4, 2) := by decide
/-- V-CSR-7: the upper bits of a FLAG register are reserved. -/
theorem test_flag_write :
    (nextOf (step (asking (.csrWrite 4 0x24 0x1AB)))).map (csrValue (.flag 0)) = some 0xAB := by
  decide
/-- V-CSR-9: START and ACK together are START. -/
theorem test_start_wins : (nextOf (step { asking (.csrWrite 4 0 5) with
    phase := .fault, inLen := 17 })).map (fun t => (t.phase, t.cause)) =
      some (.fault, .badInLen) := by decide
/-- V-CSR-11: in RUN a FLAG write and a START are ignored. -/
theorem test_writes_in_run :
    (nextOf (step (asks (.csrWrite 4 0x24 0) (running t2 [0] [] 8 0 0 0)))).map State.flags =
      some t2 ∧
    (nextOf (step (asks (.csrWrite 4 0 1) (running t2 [0] [] 8 1 0 0x80)))).map State.ip =
      some 1 := by decide
/-- V-CSR-12: CMDSTATE is mask and cmd. -/
theorem test_cmdstate : reads 0x20 (running t2 [0] [] 8 0 0x80 0x40) = some 0x4080 := by decide

/-- P5, its last reads: OUT is read once the host has waited for the end or read STATUS, not before
(R62, R243). -/
theorem test_output_read_after_end :
    (nextOf (step (asks (.outRead 0)
      { running t1 [0x80, 0xAB] [0xAB] 8 2 0x80 0x40 with phase := .done, endSeen := true }))).map
      State.hostData = some 0xAB ∧
    nextOf (step (asks (.outRead 0)
      { running t1 [0x80, 0xAB] [0xAB] 8 2 0x80 0x40 with phase := .done })) = none := by decide
/-- What lets the host read OUT, and what ends it: a STATUS read in DONE, a wait that is over, not a
STATUS read in RUN; then START. -/
theorem test_end_seen :
    (nextOf (step (asks (.csrRead 4 4) { State.resetWith (caps 8) 0 0 with phase := .done }))).map
      State.endSeen = some true ∧
    (nextOf (step { State.resetWith (caps 8) 0 0 with
      phase := .fault, hostMoves := [.awaitEnd] })).map State.endSeen = some true ∧
    (nextOf (step (asks (.csrRead 4 4) (running t1 [0] [] 8 0 0 0)))).map State.endSeen =
      some false ∧
    (nextOf (step { asking (.csrWrite 4 0 1) with phase := .done, endSeen := true })).map
      State.endSeen = some false := by decide

/-! Frames and the assembler. -/

/-- The 22 bytes of V-FRM-1, and of V-FRM-2 with two more. -/
def frame1 : List Byte := [0x50, 0x4B, 0x44, 0x50, 0x58, 22, 0, 0, 1, 2, 3, 4, 5, 6, 7, 8, 1, 0, 0, 0,
  0x80, 0xAB]

/-- V-FRM-1, V-FRM-2. -/
theorem test_parse_frame : parseFrame frame1 = .frame t1 [0x80, 0xAB] 1 ∧
    parseFrame (frame1 ++ [0xEE, 0xEE]) = .frame t1 [0x80, 0xAB] 1 := by decide
/-- V-FRM-3, V-FRM-4. -/
theorem test_parse_not_compressed : parseFrame (frame1.take 4) = .notCompressed ∧
    parseFrame (frame1.set 4 0x59) = .notCompressed := by decide
/-- V-FRM-5, V-FRM-7, V-FRM-8. -/
theorem test_parse_errors : parseFrame (frame1.take 19) = .formatError .truncatedHeader ∧
    parseFrame ((frame1.take 20).set 5 19) = .formatError .badTotalLength ∧
    parseFrame (frame1.take 21) = .formatError .truncatedPayload := by decide
/-- V-FRM-6: the empty payload. -/
theorem test_parse_empty : parseFrame ((frame1.take 20).set 5 20) = .frame t1 [] 1 := by decide
/-- E5: bytes that are no frame are the output. -/
theorem test_pass_through : entryOutput (planEntry [0x48, 0x65, 0x6C, 0x6C, 0x6F] false) State.reset =
    some [0x48, 0x65, 0x6C, 0x6C, 0x6F] := by decide
/-- P1: its three lines, and the GROUP and FILL that expand to them. -/
theorem test_assemble_fill :
    assemble [.table t2, .cmd 0x80, .unit (.lit 0x41), .unit (.bref 5 1)] =
      .ok (t2, [0x80, 0x41, 0x2F, 0xFF]) ∧
    assemble [.table t2, .group [.fill 0x41 6]] = .ok (t2, [0x80, 0x41, 0x2F, 0xFF]) :=
  ⟨rfl, rfl⟩
/-- R80: only a line that emits a byte may not follow a short GROUP (log entry 13). -/
theorem test_assemble_short_group :
    assemble [.table t2, .group [.lit 0x41], .table t1] = .ok (t1, [0x80, 0x41]) ∧
    assemble [.table t2, .group [.lit 0x41], .byte 0] = .error (1, .shortGroupNotLast) :=
  ⟨rfl, rfl⟩
/-- R79: a PAT under a set command bit is refused, with its line. -/
theorem test_assemble_wrong_bit : assemble [.table t2, .cmd 0x80, .unit (.pat 0 7)] =
    .error (2, .wrongCommandBit) := rfl
/-- R79: a length nibble that the table holds is refused. -/
theorem test_assemble_in_table : asmBref t1 3 1 = .error .brefInTable := rfl

/-! States that meet the hypotheses of the statements, a boundary value for each clause. -/

/-- V-BREF-3 before its copy, in an `OUT` of `cap` bytes: the distance is all of the output. -/
def copying (cap : Nat) : State := running t3 [0xC0, 1, 2, 0x0F, 0xFE] [1, 2] cap 3 0xC0 0x20

/-- An `IN` filled to its last byte, at its end. -/
def atEnd : State := running t1 (List.replicate 16 0) [] 8 16 0 0

/-- A run just started on V-CMD-7, with room for nine bytes a payload byte. -/
def started : State := running t1 [0x80, 0xAB] [] 18 0 0 0

theorem test_witness_params : (⟨1, 1, .lowFirst⟩ : Params).valid ∧
    (⟨2 ^ 32 - 1, 2 ^ 32 - 1, .highFirst⟩ : Params).valid ∧ Config.params.valid := by decide
theorem test_witness_ResetRegisterReads : 0x7C < 0x80 ∧ 0x7C % 4 = 0 ∧ 0x48 % 4 = 0 ∧ 0x4C % 4 = 0 := by
  decide
theorem test_witness_ResetEndsRunAtOnce :
    (asks .reset (copying 5)).hostMoves = .access .reset :: [] ∧
      (asks .reset (copying 5)).phase = .run := by decide
theorem test_witness_StepRunsDecodedInstruction :
    (copying 5).phase = .run ∧ InPayload (copying 5) ∧ (copying 5).hostMoves = [] ∧
    decode (selectSlot (copying 5).cmd (copying 5).mask) (copying 5).flags
      (payloadBytes (copying 5)) = .ok (.bref 0 0xF 0xFE, []) := ⟨rfl, by decide, rfl, rfl⟩
/-- The last payload byte, and the two waiting moves. -/
theorem test_witness_StepRunsDecodedInstruction_moves :
    InPayload (running t1 [0x80] [] 8 0 0 0) ∧
    { copying 5 with hostMoves := [.awaitEnd] }.hostMoves = .awaitEnd :: [] ∧
    { copying 5 with hostMoves := [.letStep] }.hostMoves = .letStep :: [] := by decide
theorem test_witness_HostAccessComesBeforeEngineStep :
    (asks (.csrRead 4 4) (copying 5)).hostMoves = .access (.csrRead 4 4) :: [] := rfl
/-- The engine's step ends the run, and copies, with the host waiting. -/
theorem test_witness_HostAccessComesBeforeEngineStep_waiting :
    (∃ t, step { { atEnd with hostMoves := [.awaitEnd] } with hostMoves := [] } = .next t) ∧
    { atEnd with hostMoves := [.awaitEnd] }.hostMoves = .awaitEnd :: [] ∧
    (∃ t, step { { copying 5 with hostMoves := [.letStep] } with hostMoves := [] } = .next t) ∧
    { copying 5 with hostMoves := [.letStep] }.hostMoves = .letStep :: [] ∧
    atEnd.phase = .run ∧ (copying 5).phase = .run := ⟨⟨_, rfl⟩, rfl, ⟨_, rfl⟩, rfl, rfl, rfl⟩
/-- A host read outside RUN that answers. -/
theorem test_witness_QuiescentOutsideRun_read : (asking (.inRead 3)).phase ≠ .run ∧
    (∀ a rest, (asking (.inRead 3)).hostMoves = .access a :: rest → a.changes = false) ∧
    ∃ t, step (asking (.inRead 3)) = .next t :=
  ⟨by decide, fun a rest h => by cases h; rfl, _, rfl⟩
theorem test_witness_QuiescentOutsideRun : (State.resetWith (caps 8) 0 0).phase ≠ .run ∧
    (State.resetWith (caps 8) 0 0).hostMoves = [] ∧
    { State.resetWith (caps 8) 0 0 with hostMoves := [.letStep, .awaitEnd] }.hostMoves =
      .letStep :: [.awaitEnd] ∧
    { State.resetWith (caps 8) 0 0 with phase := .done, hostMoves := [.awaitEnd] }.hostMoves =
      .awaitEnd :: [] := by decide
theorem test_witness_EndOfPayloadEndsRun : EngineTurn atEnd ∧ atEnd.ip = atEnd.inLen ∧
    atEnd.inLen.toNat ≤ atEnd.cfg.inCap := by decide
/-- In the middle of a group, and with no payload. -/
theorem test_witness_EndOfPayloadEndsRun_mask :
    (running t1 [0x80, 0xAB] [0xAB] 8 2 0x80 0x40).ip =
      (running t1 [0x80, 0xAB] [0xAB] 8 2 0x80 0x40).inLen ∧
    (running t1 [] [] 8 0 0 0).ip = (running t1 [] [] 8 0 0 0).inLen := by decide
theorem test_witness_CommandByteIsFetched : EngineTurn started ∧ InPayload started ∧
    started.mask = 0 := by decide
/-- One byte left, and none. -/
theorem test_witness_LiteralIsAppended :
    (running t1 [0xFF, 1, 2] [1] 2 2 0xFF 0x40).op.toNat + 1 ≤ 2 ∧
    2 < (running t1 [0xFF, 1, 2, 3] [1, 2] 2 3 0xFF 0x20).op.toNat + 1 := by decide
theorem test_witness_LiteralIsAppended_step :
    EngineTurn (running t1 [0x80, 0xAB] [] 8 1 0x80 0x80) ∧
    InPayload (running t1 [0x80, 0xAB] [] 8 1 0x80 0x80) ∧
    (running t1 [0x80, 0xAB] [] 8 1 0x80 0x80).mask ≠ 0 ∧
    (running t1 [0x80, 0xAB] [] 8 1 0x80 0x80).cmd &&&
      (running t1 [0x80, 0xAB] [] 8 1 0x80 0x80).mask ≠ 0 := by decide

/-- E1 before its token, in an `OUT` of `cap` bytes. -/
def atPattern (cap : Nat) : State := running t1 [0, 0x03] [] cap 1 0 0x80

/-- Two bytes left, and one: the hypotheses of the statements about PAT0 .. PAT8. -/
theorem test_witness_pattern_room : (atPattern 2).op.toNat + 2 ≤ (atPattern 2).cfg.outCap ∧
    (atPattern 1).cfg.outCap < (atPattern 1).op.toNat + 2 := by decide
/-- The two nibble orders. -/
theorem test_witness_pattern_order : (atPattern 2).cfg.nibbleOrder = .highFirst ∧
    { atPattern 2 with cfg := ⟨16, 2, .lowFirst⟩ }.cfg.nibbleOrder = .lowFirst ∧
    { atPattern 2 with cfg := ⟨16, 2, .lowFirst⟩ }.op.toNat + 2 ≤ 2 := by decide
theorem test_witness_DuplicateNibblePattern : EngineTurn (atPattern 2) ∧ InPayload (atPattern 2) ∧
    (atPattern 2).mask ≠ 0 ∧ (atPattern 2).cmd &&& (atPattern 2).mask = 0 ∧
    lookup (atPattern 2).flags (highNibble (inByte (atPattern 2) (atPattern 2).ip.toNat)) =
      some 0 := by decide
/-- R159's own corner: PAT1 with l = 15 has the nibbles 15, 0, 0, 0, and PAT8's last one is 0. -/
theorem test_witness_PatternArithmeticWrapsModulo16 :
    (1 ≤ (1 : Fin 9).val ∧ ∀ j : Fin 4, ((#v[15, 0, 0, 0] : Vector Nibble 4)[j].toNat : Int) =
      (((15 : Nibble).toNat : Int) + 1 + (if j.val + 1 = 1 then -1 else 0)) % 16) ∧
    (1 ≤ (8 : Fin 9).val ∧ ∀ j : Fin 4, ((#v[15, 15, 15, 0] : Vector Nibble 4)[j].toNat : Int) =
      (((15 : Nibble).toNat : Int) + 0 + (if j.val + 5 = 8 then 1 else 0)) % 16) := by decide
theorem test_witness_PatternArithmetic_step :
    lookup t1 (highNibble (inByte (running t1 [0, 0x83] [] 8 1 0 0x80) 1)) = some 8 ∧
    EngineTurn (running t1 [0, 0x83] [] 8 1 0 0x80) ∧
    InPayload (running t1 [0, 0x83] [] 8 1 0 0x80) := by decide
theorem test_witness_OverflowingUnitWritesNothing :
    (copying 4).ip.toNat + 1 < (copying 4).inLen.toNat ∧
    spelledDistance 0xF 0xFE ≤ (copying 4).op.toNat ∧
    (copying 4).cfg.outCap < (copying 4).op.toNat + spelledLength 0 := by decide
/-- Each of the three checks at its boundary; for the two statements about the copy. -/
theorem test_witness_BackrefPasses : (copying 5).cfg.valid ∧ BackrefPasses 0 0xF 0xFE (copying 5) ∧
    spelledDistance 0xF 0xFE = (copying 5).op.toNat ∧
    (copying 5).op.toNat + spelledLength 0 = (copying 5).cfg.outCap := by decide
theorem test_witness_BackrefChecksInOrder :
    (running t3 [0, 0x0F] [] 8 1 0 0x80).inLen.toNat ≤
      (running t3 [0, 0x0F] [] 8 1 0 0x80).ip.toNat + 1 ∧
    (copying 5).ip.toNat + 1 < (copying 5).inLen.toNat ∧
    (copying 5).op.toNat < spelledDistance 0xF 0xFD := by decide
theorem test_witness_TruncatedBackrefStepFaults :
    EngineTurn (running t3 [0, 0x0F] [] 8 1 0 0x80) ∧
    (running t3 [0, 0x0F] [] 8 1 0 0x80).ip.toNat + 1 =
      (running t3 [0, 0x0F] [] 8 1 0 0x80).inLen.toNat ∧
    (running t3 [0, 0x0F] [] 8 1 0 0x80).inLen.toNat ≤ 16 ∧
    lookup t3 (highNibble (inByte (running t3 [0, 0x0F] [] 8 1 0 0x80) 1)) = none := by decide
theorem test_witness_FaultEntryIsPrecise : (copying 4).phase ≠ .fault ∧ EngineTurn (copying 4) ∧
    ∃ t, exec (.bref 0 0xF 0xFE) (copying 4) = .next t ∧ step (copying 4) = .next t ∧
      t.phase = .fault := ⟨by decide, by decide, _, rfl, rfl, rfl⟩
/-- A fault that is no overflow, by a step. -/
theorem test_witness_EngineFaultsNameTheirUnit :
    EngineTurn (running t3 [0, 0x0F, 0xFF] [] 8 1 0 0x80) ∧
    ∃ t, step (running t3 [0, 0x0F, 0xFF] [] 8 1 0 0x80) = .next t ∧ t.phase = .fault ∧
      t.cause ≠ .outputOverflow := ⟨by decide, _, rfl, rfl, by decide⟩
/-- Also of the statements on the length of a run. -/
theorem test_witness_EngineStepNeverStops : EngineTurn atEnd ∧
    atEnd.ip.toNat ≤ atEnd.inLen.toNat ∧ atEnd.inLen.toNat ≤ atEnd.cfg.inCap ∧
    EngineTurn started ∧ started.ip.toNat ≤ started.inLen.toNat ∧
    started.inLen.toNat ≤ started.cfg.inCap := by decide
theorem test_witness_CommandFrame : ∃ t, exec (.cmd 0x80) started = .next t := ⟨_, rfl⟩
theorem test_witness_LiteralAndPatternFrame : (atPattern 2).cfg.valid ∧
    (∃ k h l, Instr.pat8 8 15 = patternInstr k h l) ∧
    (∃ t, exec (.lit 0xAB) (atPattern 2) = .next t ∧ t.phase = .run) ∧
    (∃ t, exec (.pat8 8 15) (atPattern 2) = .next t ∧ t.phase = .run) ∧
    (∃ t, exec (.pat8 8 15) (atPattern 1) = .next t ∧ t.phase = .fault) :=
  ⟨by decide, ⟨8, 8, 15, rfl⟩, ⟨_, rfl, rfl⟩, ⟨_, rfl, rfl⟩, ⟨_, rfl, rfl⟩⟩
theorem test_witness_BackrefFrame : (copying 5).cfg.valid ∧
    (∃ t, exec (.bref 0 0xF 0xFE) (copying 5) = .next t ∧ t.phase = .run) ∧
    (∃ t, exec (.bref 0 0xF 0xFD) (copying 5) = .next t ∧ t.phase = .fault) :=
  ⟨by decide, ⟨_, rfl, rfl⟩, ⟨_, rfl, rfl⟩⟩
/-- The four kinds of unit, with the step answering a next state. -/
theorem test_witness_CommandBitSelectsUnit :
    (EngineTurn (copying 5) ∧ InPayload (copying 5) ∧ (copying 5).mask ≠ 0 ∧
      (copying 5).cmd &&& (copying 5).mask = 0 ∧
      lookup t3 (highNibble (inByte (copying 5) 3)) = none ∧
      (copying 5).ip.toNat + 1 < (copying 5).inLen.toNat) ∧
    ∃ t, step (copying 5) = .next t := ⟨by decide, _, rfl⟩
theorem test_witness_EngineStepConsumesPayload :
    (∃ t, step (copying 5) = .next t ∧ t.phase = .run) ∧
    (∃ t, step atEnd = .next t ∧ t.phase.ended = true) := ⟨⟨_, rfl, rfl⟩, _, rfl, rfl⟩

/-- The same run on another engine, with another `IN` above `N`, another `OUT` above `op` and the
interrupt enabled. -/
def otherRun : State :=
  { copying 5 with
    irqEn := true
    inMem := cells 0 [0xC0, 1, 2, 0x0F, 0xFE, 0x99]
    outMem := cells 0 [1, 2, 0x77]
    cfg := ⟨32, 5, .highFirst⟩
    engineId := 7 }

theorem test_witness_RunDependsOnlyOnItsInputs : (copying 5).cfg.valid ∧
    SameRun (copying 5) otherRun ∧ ∃ t, runFor 1 (copying 5) = .next t :=
  ⟨by decide, ⟨rfl, rfl, rfl, rfl, rfl, rfl, rfl, rfl, rfl, rfl, rfl, rfl, rfl, by decide, by decide,
    by decide, by decide⟩, _, rfl⟩
/-- At the bound itself, and where a copy adds to it. -/
theorem test_witness_OutputIsAtMostNineTimesInput : started.cfg.valid ∧ NineTimes started ∧
    9 * started.inLen.toNat ≤ started.cfg.outCap ∧ started.cause ≠ .outputOverflow ∧
    (∃ t, step started = .next t) ∧ (copying 45).cfg.valid ∧ NineTimes (copying 45) ∧
    9 * (copying 45).inLen.toNat ≤ (copying 45).cfg.outCap ∧ ∃ t, step (copying 45) = .next t :=
  ⟨by decide, by decide, by decide, by decide, ⟨_, rfl⟩, by decide, by decide, by decide, _, rfl⟩
/-- A state in the middle of a run meets the invariant, and the machine steps from it. -/
theorem test_witness_EveryStepKeepsMachineInvariant : Inv (copying 5) ∧
    ∃ t, step (copying 5) = .next t :=
  ⟨⟨by decide, by decide, by decide, by decide, by decide, by decide, by decide, by decide,
    by decide, by decide, by decide⟩, _, rfl⟩
/-- So does a faulted one that is acknowledged next. -/
theorem test_witness_Inv_fault :
    Inv (asks (.csrWrite 4 0 4) (atFault .outputOverflow (copying 4))) ∧
    ∃ t, step (asks (.csrWrite 4 0 4) (atFault .outputOverflow (copying 4))) = .next t :=
  ⟨⟨by decide, by decide, by decide, by decide, by decide, by decide, by decide, by decide,
    by decide, by decide, by decide⟩, _, rfl⟩
theorem test_witness_OutputOnlyGrowsWithinCapacity : EngineTurn (copying 5) ∧
    (copying 5).cfg.valid ∧ (copying 5).op.toNat ≤ (copying 5).cfg.outCap ∧
    ∃ t, step (copying 5) = .next t := ⟨by decide, by decide, by decide, _, rfl⟩
theorem test_witness_EngineNeverWritesItsInputs : EngineTurn (copying 5) ∧
    ∃ t, step (copying 5) = .next t ∧ t.phase ≠ .done := ⟨by decide, _, rfl, by decide⟩
/-- START alone, START with ACK, ACK alone and neither; from IDLE, DONE and RUN. -/
theorem test_witness_control_writes :
    WritesNext (asking (.csrWrite 4 0 5)) 0x00 5 [] ∧ (asking (.csrWrite 4 0 5)).phase ≠ .run ∧
    (5 : Word).getLsbD 0 = true ∧ (4 : Word).getLsbD 0 = false ∧ (4 : Word).getLsbD 2 = true ∧
    (4 : Word).getLsbD 1 = false ∧
    WritesNext { asking (.csrWrite 4 0 4) with phase := .done } 0x00 4 [] ∧
    WritesNext (asks (.csrWrite 4 0 1) (copying 5)) 0x00 1 [] := by decide
theorem test_witness_ReadReturns : ReadsNext (asking (.csrRead 4 0)) 0x00 [] ∧
    ReadsNext (asking (.csrRead 4 0x7C)) 0x7C [] := ⟨rfl, rfl⟩
theorem test_witness_LengthRegistersTakeWritesOutsideRun :
    (WritesNext (asking (.csrWrite 4 0x1C 9)) 0x1C 9 [] ∧
      (asking (.csrWrite 4 0x1C 9)).phase ≠ .run) ∧
    (WritesNext (asks (.csrWrite 4 0x10 9) (copying 5)) 0x10 9 [] ∧
      (asks (.csrWrite 4 0x10 9) (copying 5)).phase = .run) := by decide
/-- The first and the last FLAG register. -/
theorem test_witness_FlagRegistersHoldTheTable :
    WritesNext (asking (.csrWrite 4 0x24 0x1AB)) (0x24 + 4 * (0 : Fin 9).val) 0x1AB [] ∧
    WritesNext (asking (.csrWrite 4 0x44 7)) (0x24 + 4 * (8 : Fin 9).val) 7 [] ∧
    WritesNext (asks (.csrWrite 4 0x44 7) (copying 5)) 0x44 7 [] := by decide
/-- The first unassigned offset, the last one, and a read-only one; they meet nowhere. -/
theorem test_witness_ReadOnlyAndUnassigned :
    WritesNext (asking (.csrWrite 4 0x50 1)) 0x50 1 [] ∧ 0x50 % 4 = 0 ∧
    WritesNext (asking (.csrWrite 4 0x7C 1)) 0x7C 1 [] ∧ 0x7C % 4 = 0 ∧
    WritesNext (asking (.csrWrite 4 0x4C 1)) 0x4C 1 [] ∧ ¬ 0x50 ≤ 0x4C := by decide
theorem test_witness_IllFormedRegisterAccessIsRefused :
    (asking (.csrWrite 2 0 1)).hostMoves = .access (.csrWrite 2 0 1) :: [] ∧ (2 ≠ 4 ∨ 0 % 4 ≠ 0) ∧
    (asking (.csrRead 4 0x7F)).hostMoves = .access (.csrRead 4 0x7F) :: [] ∧
    (0x7F < 0x80 ∧ 0x7F % 4 ≠ 0) := by decide
/-- The last byte of `IN`, of `OUT` and of the output. -/
theorem test_witness_HostMemoryAccessOutsideRun :
    ((asking (.inWrite 15 1)).phase ≠ .run ∧ 15 < (asking (.inWrite 15 1)).cfg.inCap) ∧
    7 < (asking (.outWrite 7 1)).cfg.outCap ∧ 15 < (asking (.inRead 15)).cfg.inCap ∧
    (1 < (asks (.outRead 1) { copying 5 with phase := .done, endSeen := true }).op.toNat ∧
      1 < (asks (.outRead 1) { copying 5 with phase := .done, endSeen := true }).cfg.outCap ∧
      (asks (.outRead 1) { copying 5 with phase := .done, endSeen := true }).endSeen = true ∧
      (asks (.outRead 1) { copying 5 with phase := .done, endSeen := true }).phase ≠ .run) := by
  decide
/-- A step after which the host has seen the end, and one after which it has not. -/
theorem test_witness_HostMemoryAccess_seen :
    (∃ t, step { copying 5 with phase := .done, hostMoves := [.awaitEnd] } = .next t ∧
      t.endSeen = true) ∧
    (∃ t, step (asks .reset { copying 5 with phase := .done, endSeen := true }) = .next t ∧
      t.endSeen = false) := ⟨⟨_, rfl, rfl⟩, _, rfl, rfl⟩
/-- The first byte past each of them, an access in RUN, and the first offset past the window. -/
theorem test_witness_HostMemoryAccessStops :
    HostAccess.inRead 0 ∈ [HostAccess.inWrite 0 1, .inRead 0, .outWrite 0 1, .outRead 0] ∧
    (asks (.inRead 0) (copying 5)).phase = .run ∧
    (asking (.inRead 16)).cfg.inCap ≤ 16 ∧ (asking (.outWrite 8 1)).cfg.outCap ≤ 8 ∧
    (asks (.outRead 2) { copying 5 with phase := .done, endSeen := true }).op.toNat ≤ 2 ∧
    2 < (asks (.outRead 2) { copying 5 with phase := .done, endSeen := true }).cfg.outCap ∧
    (asks (.outRead 1) { copying 5 with phase := .done }).endSeen = false ∧ 0x80 ≤ 0x80 := by decide
/-- A START that faults again keeps the level high; ACK lowers it. -/
theorem test_witness_InterruptLevelFollowsPhase :
    (∃ t, step { asking (.csrWrite 4 0 3) with inLen := 17 } = .next t ∧ irqLevel t = true) ∧
    (∃ t, step { asking (.csrWrite 4 0 6) with phase := .done, irqEn := true } = .next t ∧
      irqLevel t = false) := ⟨⟨_, rfl, by decide⟩, _, rfl, by decide⟩
theorem test_witness_ParseReadsBackBuiltFrame : ([] : List Byte).length ≤ 65515 ∧
    (List.replicate 65515 (0 : Byte)).length ≤ 65515 :=
  ⟨by decide, Nat.le_of_eq List.length_replicate⟩
/-- Each clause of the parse at its boundary. -/
theorem test_witness_ParseFrameDecidesInOrder :
    (frame1.take 4).length < 5 ∧ (frame1.set 4 0x59).take 5 ≠ [0x50, 0x4B, 0x44, 0x50, 0x58] ∧
    ((frame1.take 19).take 5 = [0x50, 0x4B, 0x44, 0x50, 0x58] ∧ (frame1.take 19).length < 20) ∧
    (20 ≤ (frame1.set 5 19).length ∧ ((frame1.set 5 19).getD 5 0).toNat < 20) ∧
    (20 ≤ (frame1.take 21).length ∧ (frame1.take 21).length < 22) ∧
    (frame1.take 5 = [0x50, 0x4B, 0x44, 0x50, 0x58] ∧
      (frame1.getD 5 0).toNat + 256 * (frame1.getD 6 0).toNat = 22 ∧ 22 ≤ frame1.length) := by decide
theorem test_witness_LoadingFrameStartsRun :
    { State.resetWith (caps 8) 0 0 with hostMoves := loadMoves t1 [0x80, 0xAB] 1 true }.hostMoves =
      loadMoves t1 [0x80, 0xAB] 1 true ∧ (caps 8).valid ∧
    (List.replicate 16 (0 : Byte)).length ≤ (caps 8).inCap ∧
    (State.resetWith (caps 8) 0 0).phase ≠ .run := by decide
/-- The last table entry and the largest operands. -/
theorem test_witness_AssembledTokensDecodeBack : asmPat t1 8 15 = .ok [0x8F] ∧
    asmBref t1 18 4096 = .ok [0xF0, 0x00] ∧ asmBref t3 3 1 = .ok [0x0F, 0xFF] := ⟨rfl, rfl, rfl⟩
theorem test_witness_InstancesShareNothing :
    (∃ q, platformStep 1 [started, copying 5] = .next q) ∧
    [started, copying 5][1]? = some (copying 5) := ⟨⟨_, rfl⟩, rfl⟩
theorem test_witness_EncodeReadsBackDecode : decode .token t3 [0x0F, 0xFE, 0x01] =
    .ok (.bref 0 0xF 0xFE, [0x01]) := rfl
/-- An entry above 0x0F, and an index that is found. -/
theorem test_witness_LookupFindsLeastMatchingIndex :
    0x0F < (#v[0x10, 0x21, 2, 3, 4, 5, 6, 7, 8] : Table)[(0 : Fin 9)].toNat ∧
    lookup #v[0x10, 0x21, 2, 3, 4, 5, 6, 7, 8] 2 = some 2 ∧
    lookup #v[0x10, 0x21, 2, 3, 4, 5, 6, 7, 8] 1 = none := by decide

end Sys2Proof.Tests
end

section
/-! The family of 10_state.md: what an engine step does to `ip`, `op` and `OUT` (R22, R23), and what the
registers of the CSR window take and show (R36 to R48). -/

namespace Sys2Proof.Machine

/-! ### What an engine step can answer -/

/-- The unit at `ip` is a back-reference: a token whose kind nibble the table does not hold (R140). -/
abbrev SelectsBackref (s : State) : Prop :=
  s.mask ≠ 0 ∧ s.cmd &&& s.mask = 0 ∧ lookup s.flags (highNibble (inByte s s.ip.toNat)) = none

/-- A completed unit of one payload byte that appended `bs` (R131, R143, R150). -/
def afterEmit (bs : List Byte) (s : State) : State :=
  { s with
    outMem := (appendBytes bs s).outMem
    op := s.op + BitVec.ofNat 32 bs.length
    ip := s.ip + 1
    mask := s.mask >>> 1 }

/-- A completed back-reference of `len` bytes at distance `d` (R178). -/
def afterCopy (len d : Nat) (s : State) : State :=
  { s with
    outMem := (copyBack d len s).outMem
    op := s.op + BitVec.ofNat 32 len
    ip := s.ip + 2
    mask := s.mask >>> 1 }

/-- Every next state of an engine step: END, a fault entry, a command byte, a completed unit of one
payload byte, or a completed back-reference. -/
inductive EngineResult (s : State) : State → Prop where
  | ended : EngineResult s (endRun s)
  | faulted (c : Cause) : EngineResult s (atFault c s)
  | command (c : Byte) (inside : InPayload s) (slot : s.mask = 0) :
      EngineResult s { s with cmd := c, ip := s.ip + 1, mask := 0x80 }
  | emitted (bs : List Byte) (inside : InPayload s) (noBackref : ¬ SelectsBackref s)
      (room : s.op.toNat + bs.length ≤ s.cfg.outCap) : EngineResult s (afterEmit bs s)
  | copied (len d : Nat) (backref : SelectsBackref s) (inside : s.ip.toNat + 1 < s.inLen.toNat)
      (positive : 1 ≤ d) (reach : d ≤ s.op.toNat) (room : s.op.toNat + len ≤ s.cfg.outCap) :
      EngineResult s (afterCopy len d s)

/-- A unit of one payload byte faults or completes. -/
theorem engineResult_emitUnit {s : State} (bs : List Byte) (inside : InPayload s)
    (noBackref : ¬ SelectsBackref s) : EngineResult s (emitUnit bs s) := by
  rcases emitUnit_cases bs s with ⟨-, e⟩ | ⟨room, e⟩ <;> rw [e]
  · exact .faulted _
  · exact .emitted bs inside noBackref room

/-- A back-reference faults or completes. -/
theorem engineResult_copyUnit {s : State} (len : Nat) {d : Nat} (backref : SelectsBackref s)
    (positive : 1 ≤ d) : EngineResult s (copyUnit len d s) := by
  rcases copyUnit_cases len d s with
    ⟨-, e⟩ | ⟨-, -, e⟩ | ⟨-, -, -, e⟩ | ⟨inside, reach, room, e⟩ <;> rw [e]
  case inr.inr.inr => exact .copied len d backref inside positive reach room
  all_goals exact .faulted _

/-- The distance of a back-reference is never 0 (R174). -/
theorem one_le_distance (l : Nibble) (o : Byte) : 1 ≤ distance l o :=
  distance_eq_spelled l o ▸ (spelledDistance_range l o).1

/-- The next state of an engine step is one of the results above. -/
theorem engineResult_of_engineStep {s t : State} (h : engineStep s = .next t) :
    EngineResult s t := by
  rcases engineStep_cases s with ⟨-, e⟩ | ⟨-, -, e⟩ | ⟨inside, slot, e⟩ | ⟨inside, -, bit, e⟩ |
    ⟨inside, -, -, k, found, e⟩ | ⟨-, hm, hb, missing, -, e⟩ | ⟨-, -, -, -, -, e⟩ <;> rw [e] at h
  · cases h
  · cases h; exact .ended
  · cases h; exact .command _ inside slot
  · cases h; exact engineResult_emitUnit _ inside fun hs => bit hs.2.1
  · obtain ⟨b0, b1, e⟩ := exec_patternInstr k (highNibble (inByte s s.ip.toNat))
      (lowNibble (inByte s s.ip.toNat)) s
    rw [e] at h
    cases h
    exact engineResult_emitUnit _ inside fun hs => by simp [hs.2.2] at found
  · cases h; exact engineResult_copyUnit _ ⟨hm, hb, missing⟩ (one_le_distance _ _)
  · cases h; exact .faulted _

/-- The same of the machine's step when it is the engine's turn. -/
theorem engineResult_of_step {s t : State} (turn : EngineTurn s) (h : step s = .next t) :
    EngineResult s t :=
  engineResult_of_engineStep (step_of_engineTurn turn ▸ h)

/-! ### What a step consumes and appends -/

/-- A unit of one payload byte leaves every output byte outside the appended ones as before. -/
theorem outByte_afterEmit {bs : List Byte} {s : State} (hn : s.op.toNat + bs.length < 2 ^ 32)
    {a : Nat} (ha : a < s.op.toNat ∨ s.op.toNat + bs.length ≤ a) :
    outByte (afterEmit bs s) a = outByte s a :=
  (outByte_congr (s := appendBytes bs s) (t := afterEmit bs s) rfl (appendBytes_draws bs s).symm
    (appendBytes_engineId bs s).symm a).trans (appendBytes_keeps hn ha)

/-- A back-reference leaves every output byte outside the copied ones as before. -/
theorem outByte_afterCopy {len d : Nat} {s : State} (positive : 1 ≤ d) (reach : d ≤ s.op.toNat)
    (hn : s.op.toNat + len < 2 ^ 32) {a : Nat}
    (ha : a < s.op.toNat ∨ s.op.toNat + len ≤ a) :
    outByte (afterCopy len d s) a = outByte s a :=
  (outByte_congr (s := copyBack d len s) (t := afterCopy len d s) rfl (copyBack_draws d len s).symm
    (copyBack_engineId d len s).symm a).trans ((copyBack_bytes positive reach hn).1 a ha)

/-- Consuming `n` bytes of the payload below `N` does not wrap `ip` (R22). -/
theorem ip_advances {s t : State} {n : Nat} (ht : t.ip = s.ip + BitVec.ofNat 32 n)
    (hn : s.ip.toNat + n ≤ s.inLen.toNat) :
    t.ip.toNat ≤ s.inLen.toNat ∧ t.ip.toNat = s.ip.toNat + n := by
  have hN := s.inLen.isLt
  have hip : t.ip.toNat = s.ip.toNat + n := ht ▸ op_toNat_add (by omega)
  exact ⟨hip ▸ hn, hip⟩

/-- Settles O32: the cases of an engine step; a unit that completes had its one or two bytes below
`N`. -/
theorem engineStepConsumesPayload : Obligations.EngineStepConsumesPayload := by
  intro s t turn _ h
  cases engineResult_of_step turn h with
  | ended => exact .inr ⟨rfl, rfl⟩
  | faulted c => exact .inr ⟨rfl, rfl⟩
  | command c inside slot =>
    rw [if_neg fun hs => hs.1 slot]
    exact .inl ⟨turn.2, inside.1, ip_advances rfl inside.1⟩
  | emitted bs inside noBackref room =>
    rw [if_neg noBackref]
    exact .inl ⟨turn.2, inside.1, ip_advances rfl inside.1⟩
  | copied len d backref inside positive reach room =>
    rw [if_pos backref]
    exact .inl ⟨turn.2, by omega, ip_advances rfl inside⟩

/-- Settles O38: the cases of an engine step; only a completed unit writes `OUT`, from the old `op` up
to the new one, after a check against OUT_CAP. -/
theorem outputOnlyGrowsWithinCapacity : Obligations.OutputOnlyGrowsWithinCapacity := by
  intro s t turn valid fits h
  obtain ⟨-, -, hcap⟩ := valid
  cases engineResult_of_step turn h with
  | ended => exact ⟨le_rfl, fits, fun _ _ => rfl⟩
  | faulted c => exact ⟨le_rfl, fits, fun _ _ => rfl⟩
  | command c inside slot => exact ⟨le_rfl, fits, fun _ _ => rfl⟩
  | emitted bs inside noBackref room =>
    have hop : (afterEmit bs s).op.toNat = s.op.toNat + bs.length := op_toNat_add (by omega)
    rw [hop]
    exact ⟨by omega, room, fun a ha => outByte_afterEmit (by omega) ha⟩
  | copied len d backref inside positive reach room =>
    have hop : (afterCopy len d s).op.toNat = s.op.toNat + len := op_toNat_add (by omega)
    rw [hop]
    exact ⟨by omega, room, fun a ha => outByte_afterCopy positive reach (by omega) ha⟩

/-! ### Register accesses as steps -/

/-- An aligned 32-bit access inside the window answers (R58). -/
theorem csrAccess_of_wordInWindow {off : Nat} (inside : off < csrWindow) (aligned : off % 4 = 0)
    (u : State) : csrAccess 4 off u = .next u := by
  have hle : ¬ csrWindow ≤ off := by omega
  simp [csrAccess, csrAligned, hle, aligned]

/-- A whole-word register write next on the script is the step. -/
theorem step_of_writesNext {s : State} {off : Nat} {w : Word} {rest : List HostMove}
    (h : WritesNext s off w rest) (inside : off < csrWindow) (aligned : off % 4 = 0) :
    step s = .next (writeCsr (csrAt off) w { s with hostMoves := rest }) :=
  (step_of_access h).trans (csrAccess_of_wordInWindow inside aligned _)

/-- A whole-word register read next on the script is the step. -/
theorem step_of_readsNext {s : State} {off : Nat} {rest : List HostMove}
    (h : ReadsNext s off rest) (inside : off < csrWindow) (aligned : off % 4 = 0) :
    step s = .next (readCsr (csrAt off) { s with hostMoves := rest }) :=
  (step_of_access h).trans (csrAccess_of_wordInWindow inside aligned _)

/-- No register shows the host's moves to come. -/
@[simp] theorem csrValue_hostMoves (r : Csr) (s : State) (rest : List HostMove) :
    csrValue r { s with hostMoves := rest } = csrValue r s := by
  cases r <;> rfl

/-- A read of a register returns its value and changes only the host's own fields (R38, R56). -/
theorem readReturns_of_csrValue {s : State} {off n : Nat} (inside : off < csrWindow)
    (aligned : off % 4 = 0) (value : (csrValue (csrAt off) s).toNat = n) : ReadReturns s off n :=
  fun rest h => ⟨csrValue (csrAt off) s, s.endSeen || showsEnd (csrAt off) s, value, by
    rw [step_of_readsNext h inside aligned, readCsr, csrValue_hostMoves]; rfl⟩

/-! ### The registers one by one -/

/-- START leaves the state of R110; the model's record of the run's end is cleared. -/
theorem startRun_eq_afterStart (s : State) :
    startRun s = { afterStart s with endSeen := false } := by
  rcases startRun_cases s with ⟨h, e⟩ | ⟨h, e⟩
  · simp [e, afterStart, clearRun, h]
  · simp [e, afterStart, clearRun, Nat.not_lt.2 h]

/-- A run has ended in DONE and FAULT. -/
theorem Phase.ended_iff (p : Phase) : p.ended = true ↔ p = .done ∨ p = .fault := by
  cases p <;> simp [Phase.ended]

/-- CTRL shows irq_en in bit 1 (R37). -/
theorem csrValue_ctrl_toNat (s : State) :
    (csrValue .ctrl s).toNat = if s.irqEn then 2 else 0 := by
  cases h : s.irqEn <;> simp [csrValue, bitWord, h]

/-- FLAGi stands at 0x24 + 4 i (R36). -/
theorem csrAt_flag : ∀ i : Fin 9, csrAt (0x24 + 4 * i.val) = .flag i := by decide

/-- FLAGi shows its entry, zero-extended (R47). -/
theorem csrValue_flag_toNat (i : Fin 9) (s : State) :
    (csrValue (.flag i) s).toNat = s.flags[i].toNat :=
  BitVec.toNat_setWidth_of_le (by decide)

/-- STATUS is the sum of its three fields (R39). -/
theorem statusWord_toNat (s : State) :
    (statusWord s).toNat =
      (phaseCode s.phase).toNat + 4 * s.lenMatch.toNat + 8 * (irqLevel s).toNat := by
  have sum : ∀ (p : BitVec 2) (a b : Bool),
      (p.setWidth 32 ||| (bitWord a <<< 2) ||| (bitWord b <<< 3)).toNat =
        p.toNat + 4 * a.toNat + 8 * b.toNat := by decide
  exact sum _ _ _

/-- CMDSTATE is `cmd` in [7:0] and `mask` in [15:8]. -/
theorem csrValue_cmdState_toNat (s : State) :
    (csrValue .cmdState s).toNat = 256 * s.mask.toNat + s.cmd.toNat := by
  have hc := s.cmd.isLt
  rw [csrValue, BitVec.toNat_setWidth_of_le (by decide), BitVec.toNat_append,
    ← Nat.shiftLeft_add_eq_or_of_lt hc, Nat.shiftLeft_eq]
  omega

/-- A capacity fits its register (R8, R48). -/
theorem toNat_ofNat_capacity {c : Nat} (h : c ≤ 2 ^ 32 - 1) : (BitVec.ofNat 32 c).toNat = c :=
  by
  rw [BitVec.toNat_ofNat, Nat.mod_eq_of_lt (by omega)]

/-- Right after reset every register shows 0 but the two capacities (R36). -/
theorem csrValue_resetWith (r : Csr) (p : Params) (k n : Nat) :
    csrValue r (State.resetWith p k n) =
      if r = .outCapR then BitVec.ofNat 32 p.outCap
      else if r = .inCapR then BitVec.ofNat 32 p.inCap else 0 := by
  cases r
  case flag i => simp [csrValue, State.resetWith]
  case status =>
    simp [csrValue, statusWord, phaseCode, irqLevel, Phase.ended, bitWord, State.resetWith]
  case cmdState => simp [csrValue, State.resetWith]
  all_goals rfl

/-- OUT_CAPR stands at 0x48 alone. -/
theorem csrAt_eq_outCapR_iff (off : Nat) : csrAt off = .outCapR ↔ off = 0x48 := by
  unfold csrAt
  split <;> simp_all

/-- IN_CAPR stands at 0x4C alone. -/
theorem csrAt_eq_inCapR_iff (off : Nat) : csrAt off = .inCapR ↔ off = 0x4C := by
  unfold csrAt
  split <;> simp_all

/-- Settles O2: the value of each register after reset, and where the two capacities stand. -/
theorem resetRegisterReads : Obligations.ResetRegisterReads := by
  intro p k n off inside aligned
  have value := csrValue_resetWith (csrAt off) p k n
  simp only [csrAt_eq_outCapR_iff, csrAt_eq_inCapR_iff] at value
  have quiet : showsEnd (csrAt off) (State.resetWith p k n) = false := Bool.and_false _
  rw [hostAccess, csrAccess_of_wordInWindow inside aligned, readCsr, value, quiet]
  rfl

/-- Settles O41: the branches of a write to CTRL. -/
theorem controlRegisterWritesAndReads : Obligations.ControlRegisterWritesAndReads := by
  refine ⟨fun s w rest h => ⟨false, ?_⟩, fun s => ?_⟩
  · rw [step_of_writesNext h (by decide) rfl]
    simp only [csrAt, writeCsr, writeCtrl, acknowledge, startRun_eq_afterStart, Phase.ended_iff]
    split
    · rfl
    · rw [ite_and]
  · exact readReturns_of_csrValue (by decide) rfl (csrValue_ctrl_toNat s)

/-- Settles O42: each register's write in and out of RUN, and its value. -/
theorem lengthRegistersTakeWritesOutsideRun : Obligations.LengthRegistersTakeWritesOutsideRun := by
  intro s w rest
  refine ⟨fun h idle => ?_, fun h running => ?_, fun h idle => ?_, fun h running => ?_,
    readReturns_of_csrValue (by decide) rfl rfl, readReturns_of_csrValue (by decide) rfl rfl⟩
  all_goals rw [step_of_writesNext h (by decide) rfl]
  · exact congrArg _ (if_neg idle)
  · exact congrArg _ (if_pos running)
  · exact congrArg _ (if_neg idle)
  · exact congrArg _ (if_pos running)

/-- Settles O43: a write to FLAGi sets entry i of the table outside RUN. -/
theorem flagRegistersHoldTheTable : Obligations.FlagRegistersHoldTheTable := by
  intro s i w rest
  have inside : 0x24 + 4 * i.val < csrWindow := by unfold csrWindow; omega
  have aligned : (0x24 + 4 * i.val) % 4 = 0 := by omega
  refine ⟨fun h idle => ?_, fun h running => ?_, ?_⟩
  · refine ⟨{ s with hostMoves := rest, flags := s.flags.set i (w.setWidth 8) }, ?_, rfl, ?_, ?_⟩
    · rw [step_of_writesNext h inside aligned, csrAt_flag]
      exact congrArg _ (if_neg idle)
    · simp
    · intro j hj
      exact Vector.getElem_set_ne i.isLt j.isLt fun e => hj (Fin.ext e.symm)
  · rw [step_of_writesNext h inside aligned, csrAt_flag]
    exact congrArg _ (if_pos running)
  · refine readReturns_of_csrValue inside aligned ?_
    rw [csrAt_flag, csrValue_flag_toNat]

/-- Settles O45: the value of each register; STATUS and CAUSE by the phase and the cause. -/
theorem registerViewsShowTheState : Obligations.RegisterViewsShowTheState := by
  intro s valid
  obtain ⟨⟨-, hin⟩, -, hout⟩ := valid
  refine ⟨?status, ?cause, ?_, ?_, ?_, ?_, ?_, ?_⟩ <;>
    refine readReturns_of_csrValue (by decide) rfl ?_
  case status =>
    refine (statusWord_toNat s).trans ?_
    cases hp : s.phase <;> cases s.lenMatch <;> cases hq : s.irqEn <;>
      simp [phaseCode, irqLevel, Phase.ended, hp, hq]
  case cause =>
    simp only [csrAt, csrValue]
    cases s.cause <;> rfl
  · rfl
  · rfl
  · rfl
  · exact csrValue_cmdState_toNat s
  · exact toNat_ofNat_capacity hout
  · exact toNat_ofNat_capacity hin

end Sys2Proof.Machine
end

section
/-! The family of 20_memory.md: which accesses of the CSR window have no meaning (R58). -/

namespace Sys2Proof.Machine

/-- Only a width of 4 bytes at a multiple of 4 is an aligned 32-bit access (R58). -/
theorem csrAligned_eq_false_iff {width off : Nat} :
    csrAligned width off = false ↔ width ≠ 4 ∨ off % 4 ≠ 0 := by
  simp [csrAligned, imp_iff_not_or]

/-- An access inside the window of another form is refused by name, whatever it would have done
(R58). -/
theorem csrAccess_of_illFormed {width off : Nat} (inside : off < csrWindow)
    (illFormed : width ≠ 4 ∨ off % 4 ≠ 0) (u : State) :
    csrAccess width off u = .refused .csrAccessForm := by
  rw [csrAccess, if_neg (Nat.not_le.2 inside), csrAligned_eq_false_iff.2 illFormed]
  rfl

/-- Settles O46: a write and a read are the same access of the window, and its form decides before
the register does. -/
theorem illFormedRegisterAccessIsRefused : Obligations.IllFormedRegisterAccessIsRefused := by
  intro s width off w rest inside illFormed
  exact ⟨fun write => (step_of_access write).trans (csrAccess_of_illFormed inside illFormed _),
    fun read => (step_of_access read).trans (csrAccess_of_illFormed inside illFormed _)⟩

end Sys2Proof.Machine
end

section
/-! The family of 30_encoding.md: what the table search makes of a token byte (R75). -/

namespace Sys2Proof.Machine

/-- A token whose high nibble the table finds at index `k` is the pattern of that kind (R75, R140). -/
theorem decode_token_of_lookup_some {t : Table} {b : Byte} {k : Fin 9} (rest : List Byte)
    (found : lookup t (highNibble b) = some k) :
    decode .token t (b :: rest) = .ok (patternInstr k (highNibble b) (lowNibble b), rest) := by
  simp only [decode, decodeToken, found]

/-- A token whose high nibble the table does not hold is a back-reference, its second byte the low
part of the offset (R75, R170). -/
theorem decode_token_of_lookup_none {t : Table} {b : Byte} (o : Byte) (rest : List Byte)
    (absent : lookup t (highNibble b) = none) :
    decode .token t (b :: o :: rest) = .ok (.bref (highNibble b) (lowNibble b) o, rest) := by
  simp only [decode, decodeToken, absent]

/-- Settles O60: the table search decides each token; the slot alone decides the command byte and
the literal. -/
theorem specWordsDecodeAsTheSpecSays : Obligations.SpecWordsDecodeAsTheSpecSays := by
  refine ⟨?pat0, ?bref, ?field, ?distance, ?length, ?cmd, ?lit, ?pat1⟩
  case pat0 => exact decode_token_of_lookup_some (k := 0) [] (by decide)
  case pat1 => exact decode_token_of_lookup_some (k := 1) [] (by decide)
  case bref => exact decode_token_of_lookup_none 0x00 [] (by decide)
  case field => decide
  case distance => decide
  case length => decide
  case cmd => rfl
  case lit => rfl

end Sys2Proof.Machine
end

section
/-! The family of 40_frame_frontend.md: the parse of a frame (R92 to R96), and what the host's load
sequence of R100 makes of the engine. -/

namespace Sys2Proof.Machine

/-! ### Parsing a frame -/

/-- A byte put below a word is its lowest digit to the base 256. -/
theorem toNat_append_byte {n : Nat} (x : BitVec n) (b : Byte) :
    (x ++ b).toNat = 256 * x.toNat + b.toNat := by
  rw [BitVec.toNat_append, ← Nat.shiftLeft_add_eq_or_of_lt b.isLt, Nat.shiftLeft_eq]
  omega

/-- `total_length` is little-endian in bytes 5 and 6 (R92). -/
theorem totalLength_eq (f : List Byte) :
    totalLength f = (f.getD 5 0).toNat + 256 * (f.getD 6 0).toNat :=
  (toNat_append_byte _ _).trans (Nat.add_comm _ _)

/-- `decompressed_length` is little-endian in bytes 16 to 19 (R94). -/
theorem decompressedLength_toNat (f : List Byte) :
    (decompressedLength f).toNat = (f.getD 16 0).toNat + 256 * (f.getD 17 0).toNat +
      65536 * (f.getD 18 0).toNat + 16777216 * (f.getD 19 0).toNat := by
  simp only [decompressedLength, toNat_append_byte, entryByte]
  omega

/-- Entry `i` of a frame's table is its byte `7 + i` (R95). -/
theorem frameTable_getElem (f : List Byte) (i : Fin 9) :
    (frameTable f)[i] = f.getD (7 + i.val) 0 := by
  fin_cases i <;> rfl

/-- A frame that holds its whole payload has all of its bytes (R93). -/
theorem framePayload_length {f : List Byte} (whole : totalLength f ≤ f.length) :
    (framePayload f).length = totalLength f - 20 := by
  simp only [framePayload, headerSize, List.length_take, List.length_drop]
  omega

/-- Byte `j` of the payload is byte `20 + j` of the frame (R93). -/
theorem framePayload_getElem? (f : List Byte) {j : Nat} (hj : j < totalLength f - 20) :
    (framePayload f)[j]? = f[20 + j]? := by
  rw [framePayload, headerSize, List.getElem?_take_of_lt hj, List.getElem?_drop]

/-- An entry that begins with the magic is not too short for it (R96). -/
theorem not_notCompressed_of_magic {f : List Byte} (magic : f.take 5 = frameMagic) :
    ¬ (f.length < 5 ∨ f.take 5 ≠ frameMagic) := by
  have hlen : min 5 f.length = 5 := List.length_take.symm.trans (congrArg List.length magic)
  simp only [magic, ne_eq, not_true_eq_false, or_false]
  omega

/-- Settles O52: the branches of the parse in their order, and the fields of the frame. -/
theorem parseFrameDecidesInOrder : Obligations.ParseFrameDecidesInOrder := by
  intro f tl htl
  obtain rfl : tl = totalLength f := htl.trans (totalLength_eq f).symm
  refine ⟨fun foreign => if_pos foreign, fun magic short => ?_, fun magic header small => ?_,
    fun magic header large cut => ?_, fun magic large whole => ?_⟩
  all_goals rw [parseFrame, headerSize, if_neg (not_notCompressed_of_magic magic)]
  · exact if_pos short
  · rw [if_neg (Nat.not_lt.2 header)]
    exact if_pos small
  · rw [if_neg (Nat.not_lt.2 header), if_neg (Nat.not_lt.2 large)]
    exact if_pos cut
  · rw [if_neg (Nat.not_lt.2 (large.trans whole)), if_neg (Nat.not_lt.2 large),
      if_neg (Nat.not_lt.2 whole)]
    exact ⟨_, _, _, rfl, frameTable_getElem f, framePayload_length whole,
      fun j hj => framePayload_getElem? f hj, decompressedLength_toNat f⟩

/-! ### Running a script -/

/-- The script `ms`, one move a step, takes the machine from `s` to `t`, whatever moves come after
it (log entry 4). -/
def ScriptRuns (ms : List HostMove) (s t : State) : Prop :=
  ∀ rest, runFor ms.length { s with hostMoves := ms ++ rest } = .next { t with hostMoves := rest }

/-- A run whose first `m` steps answer a next state goes on from it. -/
theorem runFor_add {m : Nat} {s t : State} (n : Nat) (h : runFor m s = .next t) :
    runFor (m + n) s = runFor n t := by
  induction m generalizing s with
  | zero => cases h; rw [Nat.zero_add]
  | succ m ih =>
    obtain ⟨s', hs, ht⟩ := runFor_inv h
    rw [Nat.succ_add, runFor_of_next _ hs, ih ht]

/-- The empty script takes no step. -/
theorem ScriptRuns.nil (s : State) : ScriptRuns [] s s := fun _ => rfl

/-- Scripts run one after the other. -/
theorem ScriptRuns.append {ms ns : List HostMove} {s t u : State} (first : ScriptRuns ms s t)
    (second : ScriptRuns ns t u) : ScriptRuns (ms ++ ns) s u := by
  intro rest
  rw [List.length_append, List.append_assoc, runFor_add _ (first _), second rest]

/-- A script of one access runs as that access does. -/
theorem ScriptRuns.access {a : HostAccess} {s t : State}
    (h : ∀ rest, hostAccess a { s with hostMoves := rest } = .next { t with hostMoves := rest }) :
    ScriptRuns [.access a] s t :=
  fun rest => runFor_of_next 0 ((step_of_access rfl).trans (h rest))

/-- A register write does not depend on the moves to come, nor change them. -/
theorem writeCsr_hostMoves (r : Csr) (w : Word) (s : State) (rest : List HostMove) :
    writeCsr r w { s with hostMoves := rest } = { writeCsr r w s with hostMoves := rest } := by
  cases r
  case ctrl =>
    simp only [writeCsr, writeCtrl, startRun, acknowledge]
    split_ifs <;> rfl
  case inLen | expLen | flag => simp only [writeCsr]; split_ifs <;> rfl
  all_goals rfl

/-- A script of one whole-word register write. -/
theorem ScriptRuns.csrWrite {off : Nat} (inside : off < csrWindow) (aligned : off % 4 = 0)
    (w : Word) (s : State) : ScriptRuns [csrWriteMove off w] s (writeCsr (csrAt off) w s) :=
  .access fun rest =>
    (csrAccess_of_wordInWindow inside aligned _).trans (congrArg _ (writeCsr_hostMoves _ _ _ rest))

/-- A script of one write to a byte of `IN`. -/
theorem ScriptRuns.inWrite {s : State} {a : Nat} (b : Byte) (idle : s.phase ≠ .run)
    (inside : a < s.cfg.inCap) :
    ScriptRuns [.access (.inWrite a b)] s { s with inMem := Memory.write s.inMem a b } :=
  .access fun _ => (if_neg idle).trans (if_neg (Nat.not_le.2 inside))

/-! ### The load sequence -/

/-- `f` with the entries at the indices `is` taken from `t`. -/
def copyEntries (t : Table) (is : List (Fin 9)) (f : Table) : Table :=
  is.foldl (fun g (i : Fin 9) => g.set i t[i]) f

/-- Copying changes exactly the entries at the given indices. -/
theorem copyEntries_getElem (t : Table) (is : List (Fin 9)) (f : Table) (j : Fin 9) :
    (copyEntries t is f)[j] = if j ∈ is then t[j] else f[j] := by
  induction is generalizing f with
  | nil => rfl
  | cons i is ih =>
    rw [copyEntries, List.foldl_cons, ← copyEntries, ih]
    by_cases h : i = j
    · subst h; simp
    · have hset : (f.set i t[i])[j] = f[j] :=
        Vector.getElem_set_ne i.isLt j.isLt fun e => h (Fin.ext e)
      simp only [hset, List.mem_cons, Ne.symm h, false_or]

/-- The nine indices cover the table. -/
theorem copyEntries_flagIndices (t f : Table) : copyEntries t flagIndices f = t := by
  have all : ∀ j : Fin 9, j ∈ flagIndices := by decide
  refine Vector.ext fun j hj => ?_
  exact (copyEntries_getElem t flagIndices f ⟨j, hj⟩).trans (if_pos (all _))

/-- The writes of FLAG registers outside RUN copy the entries (R47). -/
theorem scriptRuns_flagWrites {s : State} (t : Table) (is : List (Fin 9)) (idle : s.phase ≠ .run) :
    ScriptRuns (is.map fun i => csrWriteMove (0x24 + 4 * i.val) (t[i].setWidth 32)) s
      { s with flags := copyEntries t is s.flags } := by
  induction is generalizing s with
  | nil => exact .nil s
  | cons i is ih =>
    have inside : 0x24 + 4 * i.val < csrWindow := by unfold csrWindow; omega
    have one := ScriptRuns.csrWrite inside (by omega) (t[i].setWidth 32) s
    have entry : writeCsr (.flag i) (t[i].setWidth 32) s =
        { s with flags := s.flags.set i t[i] } := by
      simp [writeCsr, idle]
    rw [csrAt_flag, entry] at one
    exact one.append (ih idle)

/-- The memory with `p` written from address `base` on. -/
def storeFrom (base : Nat) (p : List Byte) (m : Memory) : Memory :=
  match p with
  | [] => m
  | b :: rest => storeFrom (base + 1) rest (Memory.write m base b)

/-- Storing from `base` on leaves the bytes below it alone. -/
theorem read_storeFrom_below {base a : Nat} (p : List Byte) (m : Memory) (ha : a < base) :
    Memory.read (storeFrom base p m) a = Memory.read m a := by
  induction p generalizing base m with
  | nil => rfl
  | cons b p ih => rw [storeFrom, ih _ (by omega), Memory.read_write_other _ _ (by omega)]

/-- The stored bytes are read back. -/
theorem read_storeFrom {p : List Byte} {j : Nat} {b : Byte} (base : Nat) (m : Memory)
    (h : p[j]? = some b) : Memory.read (storeFrom base p m) (base + j) = some b := by
  induction p generalizing base m j with
  | nil => cases h
  | cons c p ih =>
    cases j with
    | zero =>
      cases h
      exact (read_storeFrom_below _ _ (Nat.lt_succ_self _)).trans (Memory.read_write_same _ _ _)
    | succ j =>
      have next := ih (base + 1) (Memory.write m base c) h
      rwa [Nat.add_right_comm] at next

/-- The writes of a payload that fits in `IN`, outside RUN, store it (R100). -/
theorem scriptRuns_payloadMoves {s : State} {base : Nat} {p : List Byte} (idle : s.phase ≠ .run)
    (fits : base + p.length ≤ s.cfg.inCap) :
    ScriptRuns (payloadMoves base p) s { s with inMem := storeFrom base p s.inMem } := by
  induction p generalizing s base with
  | nil => exact .nil s
  | cons b p ih =>
    rw [List.length_cons] at fits
    have one := ScriptRuns.inWrite (a := base) b idle (by omega)
    have others : base + 1 + p.length ≤ s.cfg.inCap := by omega
    exact one.append (ih (s := { s with inMem := Memory.write s.inMem base b }) idle others)

/-- The engine set up for a frame, before the write of CTRL (R100). -/
def loaded (t : Table) (p : List Byte) (e : Word) (s : State) : State :=
  { s with
    flags := t
    inMem := storeFrom 0 p s.inMem
    inLen := BitVec.ofNat 32 p.length
    expLen := e }

/-- Outside RUN the setup moves set the engine up. -/
theorem scriptRuns_setupMoves {s : State} (t : Table) {p : List Byte} (e : Word)
    (idle : s.phase ≠ .run) (fits : p.length ≤ s.cfg.inCap) :
    ScriptRuns (setupMoves t p e) s (loaded t p e s) := by
  have table := scriptRuns_flagWrites t flagIndices idle
  rw [copyEntries_flagIndices] at table
  have payload := scriptRuns_payloadMoves (s := { s with flags := t }) (base := 0) (p := p) idle
    (by simpa using fits)
  have lengths := (ScriptRuns.csrWrite (off := 0x10) (by decide) rfl (BitVec.ofNat 32 p.length)
    { s with flags := t, inMem := storeFrom 0 p s.inMem }).append
    (ScriptRuns.csrWrite (off := 0x1C) (by decide) rfl e _)
  have value : loaded t p e s = writeCsr .expLen e (writeCsr .inLen (BitVec.ofNat 32 p.length)
      { s with flags := t, inMem := storeFrom 0 p s.inMem }) := by
    simp [writeCsr, idle, loaded]
  rw [value]
  exact (table.append payload).append lengths

/-- IN_LEN is set to the payload's length, which a capacity bounds (R8, R42). -/
theorem loaded_inLen_toNat {s : State} {p : List Byte} (t : Table) (e : Word)
    (valid : s.cfg.valid) (fits : p.length ≤ s.cfg.inCap) :
    (loaded t p e s).inLen.toNat = p.length := by
  obtain ⟨⟨-, hin⟩, -⟩ := valid
  exact toNat_ofNat_capacity (fits.trans hin)

/-- The run that START begins once the engine is set up (R110). -/
def loadedRun (t : Table) (p : List Byte) (e : Word) (irq : Bool) (s : State) : State :=
  { clearRun { loaded t p e s with irqEn := irq } with cause := .none, phase := .run }

/-- Outside RUN the load moves of a payload that fits in `IN` set the engine up and start it. -/
theorem scriptRuns_loadMoves {s : State} (t : Table) {p : List Byte} (e : Word) (irq : Bool)
    (idle : s.phase ≠ .run) (valid : s.cfg.valid) (fits : p.length ≤ s.cfg.inCap) :
    ScriptRuns (loadMoves t p e irq) s (loadedRun t p e irq s) := by
  have start := ScriptRuns.csrWrite (off := 0x00) (by decide) rfl (if irq then 3 else 1)
    (loaded t p e s)
  have value : writeCsr .ctrl (if irq then 3 else 1) (loaded t p e s) = loadedRun t p e irq s := by
    have bits : (if irq then 3 else 1 : Word).getLsbD 0 = true ∧
        (if irq then 3 else 1 : Word).getLsbD 1 = irq := by cases irq <;> decide
    have accepted : ¬ s.cfg.inCap < (loaded t p e s).inLen.toNat :=
      loaded_inLen_toNat t e valid fits ▸ Nat.not_lt.2 fits
    rw [writeCsr, writeCtrl, if_pos ⟨bits.1, idle⟩, bits.2]
    exact if_neg accepted
  exact (scriptRuns_setupMoves t e idle fits).append (value ▸ start)

/-- Settles O53: the load sequence as a script, and the fields of the run it starts. -/
theorem loadingFrameStartsRun : Obligations.LoadingFrameStartsRun := by
  intro s t p e irq valid idle fits moves
  have length := loaded_inLen_toNat t e valid fits
  have run := scriptRuns_loadMoves t e irq idle valid fits []
  rw [List.append_nil, ← moves] at run
  refine ⟨{ loadedRun t p e irq s with hostMoves := [] }, moves ▸ run, ?started, rfl, length, rfl,
    rfl, fun j b hb => ?payload, rfl, rfl⟩
  case started =>
    exact ⟨⟨rfl, rfl⟩, rfl, rfl, rfl, rfl, rfl, rfl, rfl, length.trans_le fits, valid⟩
  case payload => exact inByte_of_read (Nat.zero_add j ▸ read_storeFrom 0 s.inMem hb)

end Sys2Proof.Machine
end

section
/-! The family of 41_command.md: how a run starts and ends, and which unit an engine step performs
(R110 to R114, R140). -/

namespace Sys2Proof.Machine

/-! ### What the engine fetches -/

/-- `ip` has not passed `N`, and the payload lies in `IN` (R22, R51). -/
theorem payloadInside_iff {s : State} :
    payloadInside s = true ↔ s.ip.toNat ≤ s.inLen.toNat ∧ s.inLen.toNat ≤ s.cfg.inCap := by
  simp [payloadInside]

/-- Where the engine can fetch, the payload is inside. -/
theorem payloadInside_of_inPayload {s : State} (inside : InPayload s) : payloadInside s = true :=
  payloadInside_iff.2 ⟨inside.1.le, inside.2⟩

/-- With two payload bytes left the engine fetches both (R171). -/
theorem payloadBytes_of_two {s : State} (two : s.ip.toNat + 1 < s.inLen.toNat) :
    payloadBytes s = [inByte s s.ip.toNat, inByte s (s.ip.toNat + 1)] :=
  if_pos two

/-- At the last payload byte the engine fetches that one alone (R176). -/
theorem payloadBytes_of_last {s : State} (last : s.ip.toNat + 1 = s.inLen.toNat) :
    payloadBytes s = [inByte s s.ip.toNat] :=
  (if_neg last.not_lt).trans (if_pos (by omega))

/-- At the end of the payload there is nothing to fetch (R114). -/
theorem payloadBytes_of_end {s : State} (ended : s.ip = s.inLen) : payloadBytes s = [] := by
  rw [payloadBytes, ended, if_neg (by omega), if_neg (by omega)]

/-- Below `N` the first byte fetched is the one at `ip` (R51). -/
theorem payloadBytes_of_lt {s : State} (below : s.ip.toNat < s.inLen.toNat) :
    ∃ rest, payloadBytes s = inByte s s.ip.toNat :: rest := by
  rcases Nat.lt_or_eq_of_le below with two | last
  · exact ⟨_, payloadBytes_of_two two⟩
  · exact ⟨_, payloadBytes_of_last last⟩

/-! ### Which slot it is read in -/

/-- `mask` = 0 asks for a command byte (R111). -/
theorem selectSlot_of_mask_zero (c : Byte) {m : Byte} (hm : m = 0) : selectSlot c m = .command :=
  if_pos hm

/-- A command bit of 1 selects a literal (R113). -/
theorem selectSlot_of_bit_one {c m : Byte} (hm : m ≠ 0) (bit : c &&& m ≠ 0) :
    selectSlot c m = .literal :=
  (if_neg hm).trans (if_pos bit)

/-- A command bit of 0 selects a token (R113). -/
theorem selectSlot_of_bit_zero {c m : Byte} (hm : m ≠ 0) (bit : c &&& m = 0) :
    selectSlot c m = .token :=
  (if_neg hm).trans (if_neg (not_not.2 bit))

/-- A token whose high nibble the table does not hold has no unit without a second byte (R176). -/
theorem decode_token_of_truncated {t : Table} {b : Byte} (absent : lookup t (highNibble b) = none) :
    decode .token t [b] = .error (.truncatedBackref (highNibble b) (lowNibble b)) := by
  simp only [decode, decodeToken, absent]

/-! ### The step the decoder asks for -/

/-- Where the engine can fetch, a decoded unit is the step. -/
theorem engineStep_of_decode_ok {s : State} {i : Instr} {left : List Byte} (inside : InPayload s)
    (unit : decode (selectSlot s.cmd s.mask) s.flags (payloadBytes s) = .ok (i, left)) :
    engineStep s = exec i s := by
  rw [engineStep, if_pos (payloadInside_of_inPayload inside), unit]

/-- Where no unit can be read, the step is END or the fault entry of a truncated back-reference. -/
theorem engineStep_of_decode_error {s : State} {e : DecodeStop} (inside : payloadInside s = true)
    (stop : decode (selectSlot s.cmd s.mask) s.flags (payloadBytes s) = .error e) :
    engineStep s = .next (stopDecoding e s) := by
  rw [engineStep, if_pos inside, stop]

/-- At `ip` = `N` the step is END, in every slot (R114). -/
theorem engineStep_of_end {s : State} (ended : s.ip = s.inLen)
    (fits : s.inLen.toNat ≤ s.cfg.inCap) : engineStep s = .next (endRun s) :=
  engineStep_of_decode_error (e := .noByte) (payloadInside_iff.2 ⟨ended ▸ le_rfl, fits⟩)
    (payloadBytes_of_end ended ▸ rfl)

section
variable {s : State} (inside : InPayload s)
include inside

/-- With `mask` = 0 the step is CMD (R112). -/
theorem engineStep_of_command (slot : s.mask = 0) :
    engineStep s = exec (.cmd (inByte s s.ip.toNat)) s := by
  obtain ⟨rest, bytes⟩ := payloadBytes_of_lt inside.1
  refine engineStep_of_decode_ok (left := rest) inside ?_
  rw [selectSlot_of_mask_zero _ slot, bytes, decode]

/-- With a command bit of 1 the step is LIT (R113, R131). -/
theorem engineStep_of_literal (hm : s.mask ≠ 0) (bit : s.cmd &&& s.mask ≠ 0) :
    engineStep s = exec (.lit (inByte s s.ip.toNat)) s := by
  obtain ⟨rest, bytes⟩ := payloadBytes_of_lt inside.1
  refine engineStep_of_decode_ok (left := rest) inside ?_
  rw [selectSlot_of_bit_one hm bit, bytes, decode]

/-- A token the table holds is the pattern of its kind (R140). -/
theorem engineStep_of_pattern (hm : s.mask ≠ 0) (bit : s.cmd &&& s.mask = 0) {k : Fin 9}
    (found : lookup s.flags (highNibble (inByte s s.ip.toNat)) = some k) :
    engineStep s = exec (patternInstr k (highNibble (inByte s s.ip.toNat))
      (lowNibble (inByte s s.ip.toNat))) s := by
  obtain ⟨rest, bytes⟩ := payloadBytes_of_lt inside.1
  refine engineStep_of_decode_ok (left := rest) inside ?_
  rw [selectSlot_of_bit_zero hm bit, bytes, decode_token_of_lookup_some rest found]

/-- A token the table does not hold is a back-reference with the byte after it (R140, R170). -/
theorem engineStep_of_backref (hm : s.mask ≠ 0) (bit : s.cmd &&& s.mask = 0)
    (absent : lookup s.flags (highNibble (inByte s s.ip.toNat)) = none)
    (two : s.ip.toNat + 1 < s.inLen.toNat) :
    engineStep s = exec (.bref (highNibble (inByte s s.ip.toNat))
      (lowNibble (inByte s s.ip.toNat)) (inByte s (s.ip.toNat + 1))) s := by
  refine engineStep_of_decode_ok (left := []) inside ?_
  rw [selectSlot_of_bit_zero hm bit, payloadBytes_of_two two,
    decode_token_of_lookup_none _ [] absent]

/-- A back-reference whose token byte is the last payload byte faults (R176, R202). -/
theorem engineStep_of_truncated (hm : s.mask ≠ 0) (bit : s.cmd &&& s.mask = 0)
    (absent : lookup s.flags (highNibble (inByte s s.ip.toNat)) = none)
    (last : s.ip.toNat + 1 = s.inLen.toNat) :
    engineStep s = .next (atFault .truncatedBackref s) := by
  refine engineStep_of_decode_error (payloadInside_of_inPayload inside)
    (e := .truncatedBackref (highNibble (inByte s s.ip.toNat)) (lowNibble (inByte s s.ip.toNat))) ?_
  rw [selectSlot_of_bit_zero hm bit, payloadBytes_of_last last, decode_token_of_truncated absent]

end

/-! ### The mask after a unit -/

/-- From `s` to `t` the mask moved to the next command bit, or stayed at a fault (R113, R206). -/
def ShiftsMask (s t : State) : Prop :=
  t.mask = if t.phase = .fault then s.mask else s.mask >>> 1

/-- A fault keeps the mask (R206). -/
theorem shiftsMask_atFault (c : Cause) (s : State) : ShiftsMask s (atFault c s) := (if_pos rfl).symm

/-- A completed unit, whose step stays in RUN, moves the mask. -/
theorem shiftsMask_of_running {s t : State} (running : t.phase = .run)
    (mask : t.mask = s.mask >>> 1) : ShiftsMask s t := by
  rw [ShiftsMask, running, if_neg (by decide), mask]

/-- A literal or a pattern moves the mask, or faults. -/
theorem shiftsMask_emitUnit {s : State} (bs : List Byte) (running : s.phase = .run) :
    ShiftsMask s (emitUnit bs s) := by
  rcases emitUnit_cases bs s with ⟨-, e⟩ | ⟨-, e⟩ <;> rw [e]
  · exact shiftsMask_atFault _ s
  · exact shiftsMask_of_running running rfl

/-- A back-reference moves the mask, or faults. -/
theorem shiftsMask_copyUnit {s : State} (len d : Nat) (running : s.phase = .run) :
    ShiftsMask s (copyUnit len d s) := by
  rcases copyUnit_cases len d s with ⟨-, e⟩ | ⟨-, -, e⟩ | ⟨-, -, -, e⟩ | ⟨-, -, -, e⟩ <;> rw [e]
  case inr.inr.inr => exact shiftsMask_of_running running rfl
  all_goals exact shiftsMask_atFault _ s

/-- Whatever unit the command bit selects, it moves the mask or faults. -/
theorem shiftsMask_of_engineStep {s t : State} (running : s.phase = .run) (inside : InPayload s)
    (hm : s.mask ≠ 0) (h : engineStep s = .next t) : ShiftsMask s t := by
  by_cases bit : s.cmd &&& s.mask = 0
  · cases found : lookup s.flags (highNibble (inByte s s.ip.toNat)) with
    | some k =>
      obtain ⟨b0, b1, e⟩ := exec_patternInstr k (highNibble (inByte s s.ip.toNat))
        (lowNibble (inByte s s.ip.toNat)) s
      rw [engineStep_of_pattern inside hm bit found, e] at h
      cases h
      exact shiftsMask_emitUnit _ running
    | none =>
      rcases Nat.lt_or_eq_of_le inside.1 with two | last
      · rw [engineStep_of_backref inside hm bit found two] at h
        cases h
        exact shiftsMask_copyUnit _ _ running
      · rw [engineStep_of_truncated inside hm bit found last] at h
        cases h
        exact shiftsMask_atFault _ s
  · rw [engineStep_of_literal inside hm bit] at h
    cases h
    exact shiftsMask_emitUnit _ running

/-! ### The statements -/

/-- Settles O31: the unit by the slot and the table search; the mask by what that unit can do. -/
theorem commandBitSelectsUnit : Obligations.CommandBitSelectsUnit := by
  intro s turn inside hm
  rw [step_of_engineTurn turn]
  exact ⟨engineStep_of_literal inside hm, fun bit _ => engineStep_of_pattern inside hm bit,
    engineStep_of_backref inside hm, engineStep_of_truncated inside hm,
    fun _ => shiftsMask_of_engineStep turn.2 inside hm⟩

/-- Settles O7: with no payload byte left the decoder stops, whatever the slot. -/
theorem endOfPayloadEndsRun : Obligations.EndOfPayloadEndsRun :=
  fun _ turn ended fits => (step_of_engineTurn turn).trans (engineStep_of_end ended fits)

/-- Settles O8: the meaning of CMD, and the step that selects it. -/
theorem commandByteIsFetched : Obligations.CommandByteIsFetched :=
  ⟨fun _ _ => rfl,
    fun _ turn inside slot => (step_of_engineTurn turn).trans (engineStep_of_command inside slot)⟩

/-- Settles O40: a write of CTRL with START outside RUN is the first branch of R37. -/
theorem startBeginsRun : Obligations.StartBeginsRun := by
  intro s w rest write idle start
  obtain ⟨seen, e⟩ := controlRegisterWritesAndReads.1 s w rest write
  rw [if_pos ⟨start, idle⟩] at e
  exact ⟨seen, e⟩

end Sys2Proof.Machine
end

section
/-! The family of 42_literal.md: the literal copy (R131). -/

namespace Sys2Proof.Machine

/-- With room for its bytes a literal or a pattern completes (R131, R143, R150). -/
theorem emitUnit_of_room {bs : List Byte} {s : State}
    (room : s.op.toNat + bs.length ≤ s.cfg.outCap) :
    emitUnit bs s = afterEmit bs s := by
  rcases emitUnit_cases bs s with ⟨full, -⟩ | ⟨-, e⟩
  · exact absurd room full.not_ge
  · exact e

/-- Without room for its bytes it takes the fault entry and writes none (R203). -/
theorem emitUnit_of_full {bs : List Byte} {s : State}
    (full : s.cfg.outCap < s.op.toNat + bs.length) :
    emitUnit bs s = atFault .outputOverflow s := by
  rcases emitUnit_cases bs s with ⟨-, e⟩ | ⟨room, -⟩
  · exact e
  · exact absurd room full.not_ge

/-- The meaning of LIT: append its one byte, or fault (R131). -/
theorem exec_lit (d : Byte) (s : State) : exec (.lit d) s = .next (emitUnit [d] s) := rfl

/-- Settles O9: LIT emits one byte, which fits or does not; a command bit of 1 selects it without a
look at the table. -/
theorem literalIsAppended : Obligations.LiteralIsAppended := by
  refine ⟨fun d s room => ?fits, fun d s full => ?overflows, fun s turn inside hm bit => ?selected⟩
  case fits =>
    rw [exec_lit, emitUnit_of_room (bs := [d]) room]
    rfl
  case overflows => rw [exec_lit, emitUnit_of_full (bs := [d]) full]
  case selected => exact (step_of_engineTurn turn).trans (engineStep_of_literal inside hm bit)

end Sys2Proof.Machine
end

section
/-! The family of 43_pattern.md: the table search (R141, R142), the duplicate-nibble pattern (R143)
and the nibble-arithmetic patterns (R150 to R160). -/

namespace Sys2Proof.Machine

/-! ### The table search -/

/-- The search tries every index of the table, in rising order (R141). -/
theorem lookup_eq_find? (t : Table) (h : Nibble) :
    lookup t h = Fin.find? fun i => t[i] == h.setWidth 8 :=
  Fin.find?_eq_find?_finRange.symm

/-- An index is found exactly when its entry matches and no lower one does (R141). -/
theorem lookup_eq_some_iff {t : Table} {h : Nibble} {i : Fin 9} :
    lookup t h = some i ↔ t[i] = h.setWidth 8 ∧ ∀ j < i, t[j] ≠ h.setWidth 8 := by
  simp only [lookup_eq_find?, Fin.find?_eq_some_iff, beq_iff_eq, beq_eq_false_iff_ne]

/-- Nothing is found exactly when no entry matches (R141). -/
theorem lookup_eq_none_iff {t : Table} {h : Nibble} :
    lookup t h = none ↔ ∀ i : Fin 9, t[i] ≠ h.setWidth 8 := by
  simp only [lookup_eq_find?, Fin.find?_eq_none_iff, beq_eq_false_iff_ne]

/-- An entry that is found is a nibble, zero-extended (R142). -/
theorem toNat_le_of_lookup_eq_some {t : Table} {h : Nibble} {i : Fin 9}
    (found : lookup t h = some i) : t[i].toNat ≤ 0x0F := by
  rw [(lookup_eq_some_iff.1 found).1, BitVec.toNat_setWidth_of_le (by decide)]
  exact Nat.le_of_lt_succ h.isLt

/-- The all-zero table holds the nibble 0 alone, at index 0 (R142). -/
theorem lookup_zeroTable : ∀ h : Nibble,
    lookup (Vector.replicate 9 0) h = if h = 0 then some 0 else none := by decide

/-- Settles O58: the search as the library's least index that satisfies a test. -/
theorem lookupFindsLeastMatchingIndex : Obligations.LookupFindsLeastMatchingIndex :=
  fun _ h => ⟨fun _ => lookup_eq_some_iff, lookup_eq_none_iff,
    fun _ large found => large.not_ge (toNat_le_of_lookup_eq_some found), lookup_zeroTable h⟩

/-! ### What a pattern unit emits -/

/-- Two bytes that fit are appended (R143, R150). -/
theorem emitUnit_two_of_room {s : State} (b0 b1 : Byte) (room : s.op.toNat + 2 ≤ s.cfg.outCap) :
    emitUnit [b0, b1] s = twoBytesAppended b0 b1 s :=
  emitUnit_of_room room

/-- The meaning of PAT0, whatever the nibble order: the byte `l:l` twice, or fault (R143). -/
theorem exec_pat0 (h l : Nibble) (s : State) :
    exec (.pat0 h l) s = .next (emitUnit [l ++ l, l ++ l] s) := rfl

/-- The meaning of PAT1 to PAT8: the arithmetic pattern of that index (R150). -/
theorem exec_patternInstr_of_pos {k : Fin 9} (positive : 1 ≤ k.val) (h l : Nibble) (s : State) :
    exec (patternInstr k h l) s = .next (emitPattern k.val l s) := by
  fin_cases k
  · exact absurd positive (by decide)
  all_goals rfl

/-- With room for two bytes PAT0 appends the duplicated nibble twice (R143). -/
theorem exec_pat0_of_room {s : State} (h l : Nibble) (room : s.op.toNat + 2 ≤ s.cfg.outCap) :
    exec (.pat0 h l) s = .next (twoBytesAppended (l ++ l) (l ++ l) s) := by
  rw [exec_pat0, emitUnit_two_of_room _ _ room]

/-- Without room for two bytes every pattern takes the fault entry (R203). -/
theorem exec_patternInstr_of_full {s : State} (k : Fin 9) (h l : Nibble)
    (full : s.cfg.outCap < s.op.toNat + 2) :
    exec (patternInstr k h l) s = .next (atFault .outputOverflow s) := by
  obtain ⟨b0, b1, e⟩ := exec_patternInstr k h l s
  rw [e, emitUnit_of_full (bs := [b0, b1]) full]

/-- With a command bit of 0 a token the table holds at `k` steps as the pattern of kind `k`
(R140). -/
theorem step_of_pattern {s : State} {k : Fin 9} (turn : EngineTurn s) (inside : InPayload s)
    (hm : s.mask ≠ 0) (bit : s.cmd &&& s.mask = 0)
    (found : lookup s.flags (highNibble (inByte s s.ip.toNat)) = some k) :
    step s = exec (patternInstr k (highNibble (inByte s s.ip.toNat))
      (lowNibble (inByte s s.ip.toNat))) s :=
  (step_of_engineTurn turn).trans (engineStep_of_pattern inside hm bit found)

/-- Settles O10: PAT0 emits two bytes, which fit or do not; kind 0 in the table selects it. -/
theorem duplicateNibblePattern : Obligations.DuplicateNibblePattern :=
  ⟨fun h l _ room => exec_pat0_of_room h l room,
    fun h l _ full => exec_patternInstr_of_full 0 h l full,
    fun _ turn inside hm bit found => step_of_pattern turn inside hm bit found⟩

/-! ### The nibble arithmetic -/

/-- Reducing an integer modulo 16 gives its nibble's value (R159). -/
theorem toNat_ofInt_nibble (x : Int) : ((BitVec.ofInt 4 x).toNat : Int) = x % 16 := by
  rw [BitVec.toNat_ofInt]
  exact Int.toNat_of_nonneg (Int.emod_nonneg x (by decide))

/-- The base of a pattern as R150 spells it. -/
theorem patternBase_eq (idx : Nat) (l : Nibble) :
    patternBase idx l = (l.toNat : Int) + (if idx = 1 then 1 else if idx = 5 then -1 else 0) := by
  unfold patternBase
  split_ifs <;> omega

/-- The adjustment of a pattern as R150 spells it, without a natural subtraction. -/
theorem patternAdjust_eq {idx : Nat} (positive : 1 ≤ idx) (j : Nat) :
    patternAdjust idx j = if idx ≤ 4 then (if j + 1 = idx then -1 else 0)
      else (if j + 5 = idx then 1 else 0) := by
  unfold patternAdjust
  split_ifs <;> omega

/-- A nibble whose value is the sum of R150 modulo 16 is the pattern's (R159). -/
theorem patternNibble_eq {idx : Nat} {l n : Nibble} {j : Nat} (positive : 1 ≤ idx)
    (value : (n.toNat : Int) =
      ((l.toNat : Int) + (if idx = 1 then 1 else if idx = 5 then -1 else 0) +
        (if idx ≤ 4 then (if j + 1 = idx then -1 else 0)
          else (if j + 5 = idx then 1 else 0))) % 16) :
    patternNibble idx l j = n := by
  rw [← patternBase_eq, ← patternAdjust_eq positive, ← toNat_ofInt_nibble] at value
  exact BitVec.eq_of_toNat_eq (Int.ofNat_inj.1 value.symm)

/-- With room for two bytes an arithmetic pattern appends its nibbles packed in pairs (R150,
R160). -/
theorem emitPattern_of_room {s : State} (idx : Nat) (l : Nibble)
    (room : s.op.toNat + 2 ≤ s.cfg.outCap) :
    emitPattern idx l s = twoBytesAppended
      (packNibbles s.cfg.nibbleOrder (patternNibble idx l 0) (patternNibble idx l 1))
      (packNibbles s.cfg.nibbleOrder (patternNibble idx l 2) (patternNibble idx l 3)) s :=
  emitUnit_two_of_room _ _ room

/-- Settles O19: the four nibbles are the pattern's, packed as the nibble order says. -/
theorem patternArithmeticWrapsModulo16 : Obligations.PatternArithmeticWrapsModulo16 := by
  refine ⟨fun k h l n s positive value => ?arithmetic,
    fun _ _ turn inside hm bit found => step_of_pattern turn inside hm bit found,
    fun h l _ _ room => exec_pat0_of_room h l room⟩
  have fits (room : s.op.toNat + 2 ≤ s.cfg.outCap) : exec (patternInstr k h l) s =
      .next (twoBytesAppended (packNibbles s.cfg.nibbleOrder (n 0) (n 1))
        (packNibbles s.cfg.nibbleOrder (n 2) (n 3)) s) := by
    have nibble (j : Fin 4) : patternNibble k.val l j.val = n j :=
      patternNibble_eq positive (value j)
    rw [exec_patternInstr_of_pos positive, emitPattern_of_room _ _ room, ← nibble 0, ← nibble 1,
      ← nibble 2, ← nibble 3]
    rfl
  refine ⟨fun room order => ?_, fun room order => ?_, exec_patternInstr_of_full k h l⟩
  all_goals
    rw [fits room, order]
    rfl

end Sys2Proof.Machine
end

section
/-! The family of 44_backref.md: the checks of a back-reference in their order (R176, R177) and its
copy (R178). -/

namespace Sys2Proof.Machine

/-- The meaning of BREF, by the length and the distance its fields spell (R173 to R175). -/
theorem exec_bref (h l : Nibble) (o : Byte) (s : State) :
    exec (.bref h l o) s = .next (copyUnit (spelledLength h) (spelledDistance l o) s) := by
  rw [← distance_eq_spelled]
  rfl

/-! ### The checks -/

/-- Without its second byte in the payload a back-reference takes the fault entry (R176). -/
theorem copyUnit_of_truncated {s : State} (len d : Nat)
    (last : s.inLen.toNat ≤ s.ip.toNat + 1) :
    copyUnit len d s = atFault .truncatedBackref s := by
  rcases copyUnit_cases len d s with ⟨-, e⟩ | ⟨two, -⟩ | ⟨two, -⟩ | ⟨two, -⟩
  case inl => exact e
  all_goals exact absurd last two.not_ge

/-- With its second byte there but more distance than output it takes the fault entry, whatever the
room (R177). -/
theorem copyUnit_of_underflow {s : State} (len : Nat) {d : Nat}
    (two : s.ip.toNat + 1 < s.inLen.toNat) (short : s.op.toNat < d) :
    copyUnit len d s = atFault .backrefUnderflow s := by
  rcases copyUnit_cases len d s with ⟨last, -⟩ | ⟨-, -, e⟩ | ⟨-, reach, -⟩ | ⟨-, reach, -⟩
  case inr.inl => exact e
  case inl => exact absurd last two.not_ge
  all_goals exact absurd reach short.not_ge

/-- A back-reference that passes its three checks completes (R178). -/
theorem copyUnit_of_room {s : State} {len d : Nat} (two : s.ip.toNat + 1 < s.inLen.toNat)
    (reach : d ≤ s.op.toNat) (room : s.op.toNat + len ≤ s.cfg.outCap) :
    copyUnit len d s = afterCopy len d s := by
  rcases copyUnit_cases len d s with ⟨last, -⟩ | ⟨-, short, -⟩ | ⟨-, -, full, -⟩ | ⟨-, -, -, e⟩
  · exact absurd last two.not_ge
  · exact absurd reach short.not_ge
  · exact absurd room full.not_ge
  · exact e

/-- Settles O23: the two faults are the first two outcomes of the checks, in that order. -/
theorem backrefChecksInOrder : Obligations.BackrefChecksInOrder := by
  intro h l o s
  rw [exec_bref]
  exact ⟨fun last => by rw [copyUnit_of_truncated _ _ last],
    fun two short => by rw [copyUnit_of_underflow _ two short]⟩

/-! ### The copy -/

/-- Completing a back-reference leaves the output as the copy loop wrote it. -/
theorem outByte_afterCopy_eq_copyBack (len d : Nat) (s : State) (a : Nat) :
    outByte (afterCopy len d s) a = outByte (copyBack d len s) a :=
  outByte_congr (s := copyBack d len s) (t := afterCopy len d s) rfl
    (copyBack_draws d len s).symm (copyBack_engineId d len s).symm a

/-- Each byte a completed back-reference wrote equals the byte `d` before it, be that an old byte or
a new one (R178). -/
theorem outByte_afterCopy_new {len d : Nat} {s : State} (positive : 1 ≤ d)
    (reach : d ≤ s.op.toNat) (hn : s.op.toNat + len < 2 ^ 32) {i : Nat} (hi : i < len) :
    outByte (afterCopy len d s) (s.op.toNat + i) =
      outByte (afterCopy len d s) (s.op.toNat + i - d) := by
  simp only [outByte_afterCopy_eq_copyBack]
  exact (copyBack_bytes positive reach hn).2 i hi

/-- What fits in a valid capacity does not wrap the cursor (R8). -/
theorem lt_two_pow_of_le_outCap {s : State} {n : Nat} (valid : s.cfg.valid)
    (room : n ≤ s.cfg.outCap) : n < 2 ^ 32 := by
  obtain ⟨-, -, hcap⟩ := valid
  omega

/-- Settles O21: the three checks pass, so the copy completes; its bytes are those of the copy
loop. -/
theorem backrefCopiesByteByByte : Obligations.BackrefCopiesByteByByte := by
  intro h l o s valid ⟨two, reach, room⟩
  have positive := (spelledDistance_range l o).1
  have hn := lt_two_pow_of_le_outCap valid room
  refine ⟨afterCopy (spelledLength h) (spelledDistance l o) s, ?completes, rfl,
    fun i hi => outByte_afterCopy_new positive reach hn hi,
    fun a ha => outByte_afterCopy positive reach hn ha⟩
  case completes => rw [exec_bref, copyUnit_of_room two reach room]

end Sys2Proof.Machine
end

section
/-! The family of 60_exceptions.md: the overflow check before a unit's first write (R203), the
truncated back-reference (R202), and the precision of the fault entry (R206). -/

namespace Sys2Proof.Machine

/-! ### Overflow -/

/-- A back-reference that passes its first two checks and has no room takes the fault entry and
writes no byte (R203). -/
theorem copyUnit_of_full {s : State} {len d : Nat} (two : s.ip.toNat + 1 < s.inLen.toNat)
    (reach : d ≤ s.op.toNat) (full : s.cfg.outCap < s.op.toNat + len) :
    copyUnit len d s = atFault .outputOverflow s := by
  rcases copyUnit_cases len d s with ⟨last, -⟩ | ⟨-, short, -⟩ | ⟨-, -, -, e⟩ | ⟨-, -, room, -⟩
  · exact absurd last two.not_ge
  · exact absurd reach short.not_ge
  · exact e
  · exact absurd room full.not_ge

/-- Settles O20: a literal and a pattern check the room for all their bytes, and a back-reference
makes the same check third, each before its first write. -/
theorem overflowingUnitWritesNothing : Obligations.OverflowingUnitWritesNothing := by
  intro s
  obtain ⟨-, literalOverflows, -⟩ := literalIsAppended
  refine ⟨fun d full => literalOverflows d s full, exec_patternInstr_of_full, ?backref⟩
  case backref =>
    intro h l o two reach full
    rw [exec_bref, copyUnit_of_full two reach full]

/-! ### The truncated back-reference -/

/-- Settles O24: the decoder finds no second byte, and `ip` is still at the token, the byte before
`N`. -/
theorem truncatedBackrefStepFaults : Obligations.TruncatedBackrefStepFaults := by
  intro s turn last fits hm bit absent
  have inside : InPayload s := ⟨Nat.lt_of_succ_le last.le, fits⟩
  refine ⟨atFault .truncatedBackref s, ?faults, rfl, ?faultIp⟩
  case faults =>
    exact (step_of_engineTurn turn).trans (engineStep_of_truncated inside hm bit absent last)
  case faultIp => exact Nat.eq_sub_of_add_eq last

/-! ### Precision -/

/-- From `s` to `t` the fault entry was taken, or the phase stayed as it was (R206). -/
def FaultsOrKeepsPhase (s t : State) : Prop :=
  (∃ c, t = atFault c s) ∨ t.phase = s.phase

/-- A state that is in FAULT when the one before was not is that one's fault entry (R206). -/
theorem FaultsOrKeepsPhase.eq_atFault {s t : State} (result : FaultsOrKeepsPhase s t)
    (healthy : s.phase ≠ .fault) (fault : t.phase = .fault) : t = atFault t.cause s := by
  rcases result with ⟨c, rfl⟩ | kept
  · rfl
  · exact absurd (kept.symm.trans fault) healthy

/-- A literal or a pattern faults or stays in its phase. -/
theorem faultsOrKeepsPhase_emitUnit (bs : List Byte) (s : State) :
    FaultsOrKeepsPhase s (emitUnit bs s) := by
  rcases emitUnit_cases bs s with ⟨-, e⟩ | ⟨-, e⟩ <;> rw [e]
  · exact .inl ⟨_, rfl⟩
  · exact .inr rfl

/-- A back-reference faults or stays in its phase. -/
theorem faultsOrKeepsPhase_copyUnit (len d : Nat) (s : State) :
    FaultsOrKeepsPhase s (copyUnit len d s) := by
  rcases copyUnit_cases len d s with ⟨-, e⟩ | ⟨-, -, e⟩ | ⟨-, -, -, e⟩ | ⟨-, -, -, e⟩ <;> rw [e]
  case inr.inr.inr => exact .inr rfl
  all_goals exact .inl ⟨_, rfl⟩

/-- Every unit faults or stays in its phase. -/
theorem faultsOrKeepsPhase_of_exec {i : Instr} {s t : State} (h : exec i s = .next t) :
    FaultsOrKeepsPhase s t := by
  rcases exec_cases i s with ⟨_, -, e⟩ | ⟨_, -, e⟩ | ⟨_, _, _, _, _, -, e⟩ | ⟨_, _, _, -, e⟩ <;>
    (rw [e] at h; cases h)
  · exact .inr rfl
  · exact faultsOrKeepsPhase_emitUnit _ s
  · exact faultsOrKeepsPhase_emitUnit _ s
  · exact faultsOrKeepsPhase_copyUnit _ _ s

/-- Every engine step ends the run, faults or stays in its phase (R114, R206). -/
theorem EngineResult.ended_or_faultsOrKeepsPhase {s t : State} (result : EngineResult s t) :
    t = endRun s ∨ FaultsOrKeepsPhase s t := by
  cases result with
  | ended => exact .inl rfl
  | faulted c => exact .inr (.inl ⟨c, rfl⟩)
  | command | emitted | copied => exact .inr (.inr rfl)

/-- Settles O25: a unit faults by the fault entry or leaves the phase alone, and END, the only other
thing an engine step does, enters DONE. -/
theorem faultEntryIsPrecise : Obligations.FaultEntryIsPrecise := by
  refine ⟨fun i s t healthy h fault => ?unit, fun s t turn h fault => ?engine⟩
  case unit => exact (faultsOrKeepsPhase_of_exec h).eq_atFault healthy fault
  case engine =>
    have healthy : s.phase ≠ .fault := turn.2 ▸ by decide
    rcases (engineResult_of_step turn h).ended_or_faultsOrKeepsPhase with rfl | result
    · cases fault
    · exact result.eq_atFault healthy fault

end Sys2Proof.Machine
end

section
/-! The family of 70_reset_and_hazards.md: the state after reset (R230). -/

namespace Sys2Proof.Machine

/-- Right after reset every entry of the control-flag table is 0 (R26, R230). -/
theorem flags_resetWith (p : Params) (k n : Nat) (i : Fin 9) :
    (State.resetWith p k n).flags[i] = 0x00 :=
  Vector.getElem_replicate i.isLt

/-- Settles O1: the reset state fixes every field, and a valid capacity fits its register. -/
theorem resetLeavesSpecValues : Obligations.ResetLeavesSpecValues := by
  intro p k n valid
  obtain ⟨⟨-, inFits⟩, -, outFits⟩ := valid
  exact ⟨rfl, rfl, rfl, rfl, rfl, rfl, rfl, rfl, rfl, rfl, flags_resetWith p k n, rfl, rfl,
    toNat_ofNat_capacity outFits, toNat_ofNat_capacity inFits⟩

end Sys2Proof.Machine
end

section
/-! What units the token stream has, over all of 30_encoding.md: the decoder and the encoder invert
each other (R71, R75), and what the assembler accepts decodes back (R79). -/

namespace Sys2Proof.Machine

/-! ### The nibbles of a byte -/

/-- The high nibble of a packed byte is its first nibble (R73). -/
@[simp] theorem highNibble_packByte (h l : Nibble) : highNibble (packByte h l) = h :=
  BitVec.extractLsb'_append_eq_left

/-- The low nibble of a packed byte is its second nibble (R73). -/
@[simp] theorem lowNibble_packByte (h l : Nibble) : lowNibble (packByte h l) = l :=
  BitVec.extractLsb'_append_eq_right

/-- A byte is packed from its two nibbles (R73). -/
@[simp] theorem packByte_nibbles : ∀ b : Byte, packByte (highNibble b) (lowNibble b) = b := by
  decide

/-- The high nibble is the quotient by 16 (R73). -/
theorem highNibble_toNat (b : Byte) : (highNibble b).toNat = b.toNat / 16 := by
  have := b.isLt
  rw [highNibble, BitVec.extractLsb'_toNat, Nat.shiftRight_eq_div_pow]
  omega

/-- The low nibble is the remainder by 16 (R73). -/
theorem lowNibble_toNat (b : Byte) : (lowNibble b).toNat = b.toNat % 16 :=
  BitVec.extractLsb'_toNat ..

/-- Settles O59: the offset field is one byte put below a nibble, and the distance is the one the
spec spells. -/
theorem backrefFieldsSpellDistanceAndLength : Obligations.BackrefFieldsSpellDistanceAndLength := by
  intro h l o b
  obtain ⟨least, most⟩ := spelledDistance_range l o
  have short := h.isLt
  rw [distance_eq_spelled]
  exact ⟨toNat_append_byte l o, rfl, least, most, rfl, Nat.le_add_left 3 h.toNat,
    Nat.add_le_add_right (Nat.le_of_lt_succ short) 3, highNibble_toNat b, lowNibble_toNat b⟩

/-! ### Decoding and encoding -/

/-- The four forms of a unit (R71). -/
inductive UnitForm : Instr → Prop where
  | cmd (c : Byte) : UnitForm (.cmd c)
  | lit (d : Byte) : UnitForm (.lit d)
  | pattern (k : Fin 9) (h l : Nibble) : UnitForm (patternInstr k h l)
  | bref (h l : Nibble) (o : Byte) : UnitForm (.bref h l o)

/-- Every unit has one of the four forms: the nine pattern units are the pattern of a kind. -/
theorem unitForm (i : Instr) : UnitForm i := by
  cases i with
  | cmd c => exact .cmd c
  | lit d => exact .lit d
  | pat0 h l => exact .pattern 0 h l
  | pat1 h l => exact .pattern 1 h l
  | pat2 h l => exact .pattern 2 h l
  | pat3 h l => exact .pattern 3 h l
  | pat4 h l => exact .pattern 4 h l
  | pat5 h l => exact .pattern 5 h l
  | pat6 h l => exact .pattern 6 h l
  | pat7 h l => exact .pattern 7 h l
  | pat8 h l => exact .pattern 8 h l
  | bref h l o => exact .bref h l o

/-- A pattern of kind `k` is one byte, its two nibbles (R71). -/
@[simp] theorem encode_patternInstr (k : Fin 9) (h l : Nibble) :
    encode (patternInstr k h l) = [packByte h l] := by
  fin_cases k <;> rfl

/-- A pattern stands in a token slot (R75). -/
@[simp] theorem slot_patternInstr (k : Fin 9) (h l : Nibble) :
    (patternInstr k h l).slot = .token := by
  fin_cases k <;> rfl

/-- A pattern of kind `k` needs a kind nibble that the table holds first at `k` (R75). -/
@[simp] theorem wellFormed_patternInstr (t : Table) (k : Fin 9) (h l : Nibble) :
    (patternInstr k h l).WellFormed t ↔ lookup t h = some k := by
  fin_cases k <;> rfl

/-- Settles O56: the slot alone gives a command byte and a literal back; the table search finds the
kind of a pattern and nothing for a back-reference. -/
theorem decodeReadsBackEncode : Obligations.DecodeReadsBackEncode := by
  intro t i left wf
  cases unitForm i with
  | cmd c => rfl
  | lit d => rfl
  | pattern k h l =>
    rw [wellFormed_patternInstr] at wf
    have found : lookup t (highNibble (packByte h l)) = some k := by rwa [highNibble_packByte]
    rw [slot_patternInstr, encode_patternInstr, List.singleton_append,
      decode_token_of_lookup_some left found, highNibble_packByte, lowNibble_packByte]
  | bref h l o =>
    have absent : lookup t (highNibble (packByte h l)) = none := by rwa [highNibble_packByte]
    have read := decode_token_of_lookup_none o left absent
    rwa [highNibble_packByte, lowNibble_packByte] at read

/-- What a token decodes to: the pattern of the kind the table search finds, or, where it finds none
and a second byte is there, a back-reference (R75, R140). -/
theorem decode_token_cons_ok {t : Table} {b : Byte} {rest left : List Byte} {i : Instr}
    (h : decode .token t (b :: rest) = .ok (i, left)) :
    (∃ k, lookup t (highNibble b) = some k ∧
      i = patternInstr k (highNibble b) (lowNibble b) ∧ left = rest) ∨
    (∃ o, lookup t (highNibble b) = none ∧ i = .bref (highNibble b) (lowNibble b) o ∧
      rest = o :: left) := by
  cases found : lookup t (highNibble b) with
  | some k =>
    rw [decode_token_of_lookup_some rest found] at h
    cases h
    exact .inl ⟨k, rfl, rfl, rfl⟩
  | none =>
    cases rest with
    | nil =>
      rw [decode_token_of_truncated found] at h
      cases h
    | cons o rest =>
      rw [decode_token_of_lookup_none o rest found] at h
      cases h
      exact .inr ⟨o, rfl, rfl, rfl⟩

/-- Settles O57: a byte is read whole in each slot, and a token byte is packed from the two nibbles
of its unit. -/
theorem encodeReadsBackDecode : Obligations.EncodeReadsBackDecode := by
  intro slot t bytes left i h
  cases bytes with
  | nil => cases h
  | cons b rest =>
    cases slot with
    | command => cases h; exact ⟨trivial, rfl, rfl⟩
    | literal => cases h; exact ⟨trivial, rfl, rfl⟩
    | token =>
      rcases decode_token_cons_ok h with ⟨k, found, rfl, rfl⟩ | ⟨o, absent, rfl, rfl⟩
      · refine ⟨(wellFormed_patternInstr ..).2 found, slot_patternInstr .., ?_⟩
        rw [encode_patternInstr, packByte_nibbles, List.singleton_append]
      · refine ⟨absent, rfl, ?_⟩
        rw [encode, packByte_nibbles, List.cons_append, List.singleton_append]

/-! ### The assembler -/

/-- What `PAT k, l` that is accepted assembles to, and under what checks (R79). -/
theorem asmPat_ok {t : Table} {k l : Nat} {bs : List Byte} (h : asmPat t k l = .ok bs) :
    ∃ i : Fin 9, i.val = k ∧ l < 16 ∧ t[i].toNat ≤ 0x0F ∧
      lookup t (t[i].setWidth 4) = some i ∧
      bs = encode (patternInstr i (t[i].setWidth 4) (BitVec.ofNat 4 l)) := by
  unfold asmPat at h
  split at h
  · rename_i hk
    split at h
    · cases h
    · rename_i hl
      simp only at h
      split at h
      · cases h
      · rename_i checks
        obtain ⟨small, first⟩ := not_or.1 checks
        cases h
        exact ⟨⟨k, hk⟩, rfl, Nat.not_le.1 hl, Nat.not_lt.1 small, not_not.1 first,
          (encode_patternInstr ..).symm⟩
  · cases h

/-- What `BREF len, dist` that is accepted assembles to, and under what checks (R79). -/
theorem asmBref_ok {t : Table} {len dist : Nat} {bs : List Byte} (h : asmBref t len dist = .ok bs) :
    ∃ (n l : Nibble) (o : Byte), 3 ≤ len ∧ len ≤ 18 ∧ 1 ≤ dist ∧ dist ≤ 4096 ∧
      n = BitVec.ofNat 4 (len - 3) ∧ offsetField l o = BitVec.ofNat 12 (0x1000 - dist) ∧
      lookup t n = none ∧ bs = encode (.bref n l o) := by
  unfold asmBref at h
  split at h
  · cases h
  · simp only at h
    split at h
    · cases h
    · rename_i absent
      cases h
      refine ⟨_, _, _, by omega, by omega, by omega, by omega, rfl, ?_, not_not.1 absent, rfl⟩
      exact BitVec.extractLsb'_append_extractLsb'_eq_extractLsb' (by decide) |>.trans
        BitVec.extractLsb'_eq_self

/-- Settles O54: the assembler's checks are the well-formedness of the unit it spells, so decoding
reads it back; the fields spell the operands because these are in range. -/
theorem assembledTokensDecodeBack : Obligations.AssembledTokensDecodeBack := by
  refine fun t bs => ⟨fun k l accepted => ?pattern, fun len dist accepted => ?backref⟩
  case pattern =>
    obtain ⟨i, rfl, hl, small, first, rfl⟩ := asmPat_ok accepted
    have read := decodeReadsBackEncode t _ [] ((wellFormed_patternInstr t i _ (.ofNat 4 l)).2 first)
    rw [slot_patternInstr, List.append_nil] at read
    refine ⟨i, _, _, rfl, ?_, ?_, read⟩
    · rw [BitVec.toNat_ofNat, Nat.mod_eq_of_lt hl]
    · rw [BitVec.toNat_setWidth, Nat.mod_eq_of_lt (Nat.lt_succ_of_le small)]
  case backref =>
    obtain ⟨n, l, o, lo, hi, near, far, hn, field, absent, rfl⟩ := asmBref_ok accepted
    refine ⟨n, l, o, decodeReadsBackEncode t (.bref n l o) [] absent, ?_, ?_⟩
    · rw [spelledLength, hn, BitVec.toNat_ofNat]
      omega
    · rw [← distance_eq_spelled, distance, field, BitVec.toNat_ofNat]
      omega

end Sys2Proof.Machine
end

section
/-! What every unit does, over 41_command.md to 44_backref.md and 60_exceptions.md: the closed forms
of the patterns (R151 to R158), the overlap law (R179), the frames, the causes of a fault (R200,
R201) and totality (R76, R205). -/

namespace Sys2Proof.Machine

/-! ### The closed forms of the patterns -/

/-- With room for two bytes an arithmetic pattern appends its four nibbles, paired as the nibble
order says (R150, R160). -/
theorem exec_patternInstr_of_nibbles {k : Fin 9} (positive : 1 ≤ k.val) (h : Nibble)
    {l n0 n1 n2 n3 : Nibble} {s : State} (room : s.op.toNat + 2 ≤ s.cfg.outCap)
    (nibbles : (List.range 4).map (patternNibble k.val l) = [n0, n1, n2, n3]) :
    (s.cfg.nibbleOrder = .highFirst →
      exec (patternInstr k h l) s = .next (twoBytesAppended (n0 ++ n1) (n2 ++ n3) s)) ∧
    (s.cfg.nibbleOrder = .lowFirst →
      exec (patternInstr k h l) s = .next (twoBytesAppended (n1 ++ n0) (n3 ++ n2) s)) := by
  obtain ⟨e0, e1, e2, e3⟩ : patternNibble k.val l 0 = n0 ∧ patternNibble k.val l 1 = n1 ∧
      patternNibble k.val l 2 = n2 ∧ patternNibble k.val l 3 = n3 := by
    simpa [List.range_succ] using nibbles
  rw [exec_patternInstr_of_pos positive, emitPattern_of_room _ _ room, e0, e1, e2, e3]
  exact ⟨fun order => by rw [order]; rfl, fun order => by rw [order]; rfl⟩

/-- Settles O11: the generic rule at index 1, for each of the sixteen nibbles (R151). -/
theorem patternOneClosedForm : Obligations.PatternOneClosedForm := fun h l _ room =>
  exec_patternInstr_of_nibbles (k := 1) (by decide) h room (by decide +revert)

/-- Settles O12: the generic rule at index 2, for each of the sixteen nibbles (R152). -/
theorem patternTwoClosedForm : Obligations.PatternTwoClosedForm := fun h l _ room =>
  exec_patternInstr_of_nibbles (k := 2) (by decide) h room (by decide +revert)

/-- Settles O13: the generic rule at index 3, for each of the sixteen nibbles (R153). -/
theorem patternThreeClosedForm : Obligations.PatternThreeClosedForm := fun h l _ room =>
  exec_patternInstr_of_nibbles (k := 3) (by decide) h room (by decide +revert)

/-- Settles O14: the generic rule at index 4, for each of the sixteen nibbles (R154). -/
theorem patternFourClosedForm : Obligations.PatternFourClosedForm := fun h l _ room =>
  exec_patternInstr_of_nibbles (k := 4) (by decide) h room (by decide +revert)

/-- Settles O15: the generic rule at index 5, for each of the sixteen nibbles (R155). -/
theorem patternFiveClosedForm : Obligations.PatternFiveClosedForm := fun h l _ room =>
  exec_patternInstr_of_nibbles (k := 5) (by decide) h room (by decide +revert)

/-- Settles O16: the generic rule at index 6, for each of the sixteen nibbles (R156). -/
theorem patternSixClosedForm : Obligations.PatternSixClosedForm := fun h l _ room =>
  exec_patternInstr_of_nibbles (k := 6) (by decide) h room (by decide +revert)

/-- Settles O17: the generic rule at index 7, for each of the sixteen nibbles (R157). -/
theorem patternSevenClosedForm : Obligations.PatternSevenClosedForm := fun h l _ room =>
  exec_patternInstr_of_nibbles (k := 7) (by decide) h room (by decide +revert)

/-- Settles O18: the generic rule at index 8, for each of the sixteen nibbles (R158). -/
theorem patternEightClosedForm : Obligations.PatternEightClosedForm := fun h l _ room =>
  exec_patternInstr_of_nibbles (k := 8) (by decide) h room (by decide +revert)

/-! ### The overlap law -/

/-- A byte a completed back-reference wrote repeats the last `d` bytes before the unit (R179). -/
theorem outByte_afterCopy_mod {len d : Nat} {s : State} (positive : 1 ≤ d)
    (reach : d ≤ s.op.toNat) (hn : s.op.toNat + len < 2 ^ 32) (i : Nat) (hi : i < len) :
    outByte (afterCopy len d s) (s.op.toNat + i) = outByte s (s.op.toNat - d + i % d) := by
  induction i using Nat.strong_induction_on with
  | _ i ih =>
    rw [outByte_afterCopy_new positive reach hn hi]
    rcases Nat.lt_or_ge i d with old | new
    · rw [outByte_afterCopy positive reach hn (by omega), Nat.mod_eq_of_lt old,
        Nat.sub_add_comm reach]
    · rw [Nat.add_sub_assoc new, ih (i - d) (by omega) (by omega), ← Nat.mod_eq_sub_mod new]

/-- Settles O22: the unit passes its checks and completes; its bytes by strong induction on the
index. -/
theorem overlappingCopyRepeats : Obligations.OverlappingCopyRepeats := by
  intro h l o s valid ⟨two, reach, room⟩
  refine ⟨afterCopy (spelledLength h) (spelledDistance l o) s, ?_, fun i hi =>
    outByte_afterCopy_mod (spelledDistance_range l o).1 reach (lt_two_pow_of_le_outCap valid room)
      i hi⟩
  rw [exec_bref, copyUnit_of_room two reach room]

/-! ### Frames -/

/-- A fault entry writes nothing outside the units' own state (R206). -/
theorem sameOutsideUnits_atFault (c : Cause) (s : State) : SameOutsideUnits s (atFault c s) :=
  ⟨rfl, rfl, rfl, rfl, rfl, rfl, rfl, rfl, rfl, rfl, rfl, rfl⟩

/-- Nor does a completed unit of one payload byte (R21). -/
theorem sameOutsideUnits_afterEmit (bs : List Byte) (s : State) :
    SameOutsideUnits s (afterEmit bs s) :=
  ⟨rfl, rfl, rfl, rfl, rfl, rfl, rfl, rfl, rfl, rfl, rfl, rfl⟩

/-- Nor does a completed back-reference (R21). -/
theorem sameOutsideUnits_afterCopy (len d : Nat) (s : State) :
    SameOutsideUnits s (afterCopy len d s) :=
  ⟨rfl, rfl, rfl, rfl, rfl, rfl, rfl, rfl, rfl, rfl, rfl, rfl⟩

/-- Settles O28: CMD's record names only the three fields it writes. -/
theorem commandFrame : Obligations.CommandFrame := by
  intro c s t h
  cases h
  exact ⟨⟨rfl, rfl, rfl, rfl, rfl, rfl, rfl, rfl, rfl, rfl, rfl, rfl⟩, rfl, rfl, rfl, rfl,
    fun _ => rfl, fun _ => rfl⟩

/-- A literal is a unit that emits one byte, a pattern one that emits two (R131, R143, R150). -/
theorem exec_literalOrPattern {i : Instr} {n : Nat} (s : State)
    (h : ((∃ d, i = .lit d) ∧ n = 1) ∨ ((∃ k h l, i = patternInstr k h l) ∧ n = 2)) :
    ∃ bs : List Byte, bs.length = n ∧ exec i s = .next (emitUnit bs s) := by
  rcases h with ⟨⟨d, rfl⟩, rfl⟩ | ⟨⟨k, h, l, rfl⟩, rfl⟩
  · exact ⟨[d], rfl, exec_lit d s⟩
  · obtain ⟨b0, b1, e⟩ := exec_patternInstr k h l s
    exact ⟨[b0, b1], rfl, e⟩

/-- Settles O29: the unit faults or completes; where it completes its bytes fit in a valid capacity.
-/
theorem literalAndPatternFrame : Obligations.LiteralAndPatternFrame := by
  intro i n s t unit valid h
  obtain ⟨bs, rfl, e⟩ := exec_literalOrPattern s unit
  rw [e] at h
  cases h
  rcases emitUnit_cases bs s with ⟨-, e⟩ | ⟨room, e⟩ <;> rw [e]
  · exact ⟨sameOutsideUnits_atFault _ s, rfl, fun _ => rfl, fun _ _ => rfl, .inr rfl⟩
  · exact ⟨sameOutsideUnits_afterEmit bs s, rfl, fun _ => rfl,
      fun a ha => outByte_afterEmit (lt_two_pow_of_le_outCap valid room) ha, .inl ⟨rfl, rfl, rfl⟩⟩

/-- A back-reference takes the fault entry of one of its three causes, or completes (R178, R207). -/
theorem copyUnit_faults_or_completes (len d : Nat) (s : State) :
    (∃ c ∈ [Cause.truncatedBackref, .backrefUnderflow, .outputOverflow],
      copyUnit len d s = atFault c s) ∨
    (s.ip.toNat + 1 < s.inLen.toNat ∧ d ≤ s.op.toNat ∧ s.op.toNat + len ≤ s.cfg.outCap ∧
      copyUnit len d s = afterCopy len d s) := by
  rcases copyUnit_cases len d s with ⟨-, e⟩ | ⟨-, -, e⟩ | ⟨-, -, -, e⟩ | passes
  · exact .inl ⟨_, by decide, e⟩
  · exact .inl ⟨_, by decide, e⟩
  · exact .inl ⟨_, by decide, e⟩
  · exact .inr passes

/-- Settles O30: one of the three faults, or the copy, whose bytes fit in a valid capacity. -/
theorem backrefFrame : Obligations.BackrefFrame := by
  intro h l o s t valid answer
  rw [exec_bref] at answer
  cases answer
  rcases copyUnit_faults_or_completes (spelledLength h) (spelledDistance l o) s with
    ⟨c, known, e⟩ | ⟨-, reach, room, e⟩ <;> rw [e]
  · exact ⟨sameOutsideUnits_atFault c s, rfl, fun _ => rfl, fun _ _ => rfl, .inr ⟨c, known, rfl⟩⟩
  · exact ⟨sameOutsideUnits_afterCopy .., rfl, fun _ => rfl,
      fun a ha => outByte_afterCopy (spelledDistance_range l o).1 reach
        (lt_two_pow_of_le_outCap valid room) ha, .inl ⟨rfl, rfl, rfl⟩⟩

/-! ### The engine's step -/

/-- While the host waits for the end of a run the step is the engine's (log entry 4). -/
theorem step_of_awaitEnd {s : State} {rest : List HostMove} (running : s.phase = .run)
    (moves : s.hostMoves = .awaitEnd :: rest) : step s = engineStep s := by
  simp [step, turn, moves, running]

/-- Where the host lets the engine step, it does so with that move taken off (log entry 4). -/
theorem step_of_letStep {s : State} {rest : List HostMove} (running : s.phase = .run)
    (moves : s.hostMoves = .letStep :: rest) :
    step s = engineStep { s with hostMoves := rest } := by
  simp [step, turn, moves, running]

/-- Settles O4: the decoded unit is the engine's step, and the engine has its turn with no move to
come, while the host waits, and when the host lets it step. -/
theorem stepRunsDecodedInstruction : Obligations.StepRunsDecodedInstruction := by
  intro s i left running inside unit
  refine ⟨fun moves => ?_, fun rest moves => ?_, fun rest moves => ?_, ?bytes⟩
  · exact (step_of_engineTurn ⟨moves, running⟩).trans (engineStep_of_decode_ok inside unit)
  · exact (step_of_awaitEnd running moves).trans (engineStep_of_decode_ok inside unit)
  · exact (step_of_letStep running moves).trans
      (engineStep_of_decode_ok (s := { s with hostMoves := rest }) inside unit)
  case bytes =>
    rcases Nat.lt_or_eq_of_le inside.1 with two | last
    · rw [payloadBytes_of_two two, if_pos two]
    · rw [payloadBytes_of_last last, if_neg last.not_lt]

/-- What an engine step leaves alone: `IN`, the table, the lengths, the parameters and the host's
fields, and the length report but on entering DONE (R51, R21). -/
theorem EngineResult.keeps {s t : State} (result : EngineResult s t) :
    t.inMem = s.inMem ∧ t.flags = s.flags ∧ t.inLen = s.inLen ∧ t.expLen = s.expLen ∧
    t.irqEn = s.irqEn ∧ t.cfg = s.cfg ∧ t.draws = s.draws ∧ t.hostMoves = s.hostMoves ∧
    t.hostData = s.hostData ∧ t.endSeen = s.endSeen ∧ t.engineId = s.engineId ∧
    (t.phase ≠ .done → t.lenMatch = s.lenMatch) := by
  cases result with
  | ended => exact ⟨rfl, rfl, rfl, rfl, rfl, rfl, rfl, rfl, rfl, rfl, rfl, fun h => absurd rfl h⟩
  | faulted | command | emitted | copied =>
    exact ⟨rfl, rfl, rfl, rfl, rfl, rfl, rfl, rfl, rfl, rfl, rfl, fun _ => rfl⟩

/-- Settles O39: the cases of an engine step. -/
theorem engineNeverWritesItsInputs : Obligations.EngineNeverWritesItsInputs :=
  fun _ _ turn h => (engineResult_of_step turn h).keeps

/-- What an engine step that faults records: a unit's cause, and one other than OUTPUT_OVERFLOW only
at a back-reference (R200, R201). -/
abbrev NamesItsUnit (s t : State) : Prop :=
  t.cause ∈ [Cause.truncatedBackref, .backrefUnderflow, .outputOverflow] ∧
    (t.cause ≠ .outputOverflow → SelectsBackref s)

/-- A literal or a pattern that faults names OUTPUT_OVERFLOW. -/
theorem namesItsUnit_emitUnit {bs : List Byte} {s : State} (healthy : s.phase ≠ .fault)
    (fault : (emitUnit bs s).phase = .fault) : NamesItsUnit s (emitUnit bs s) := by
  rcases emitUnit_cases bs s with ⟨-, e⟩ | ⟨-, e⟩ <;> rw [e] at fault ⊢
  · exact ⟨by simp, fun h => absurd rfl h⟩
  · exact absurd fault healthy

/-- A back-reference that faults names one of the three causes. -/
theorem namesItsUnit_copyUnit {len d : Nat} {s : State} (backref : SelectsBackref s)
    (healthy : s.phase ≠ .fault) (fault : (copyUnit len d s).phase = .fault) :
    NamesItsUnit s (copyUnit len d s) := by
  rcases copyUnit_faults_or_completes len d s with ⟨c, known, e⟩ | ⟨-, -, -, e⟩ <;>
    rw [e] at fault ⊢
  · exact ⟨known, fun _ => backref⟩
  · exact absurd fault healthy

/-- An engine step that enters FAULT names its unit. -/
theorem namesItsUnit_of_engineStep {s t : State} (running : s.phase = .run)
    (h : engineStep s = .next t) (fault : t.phase = .fault) : NamesItsUnit s t := by
  have healthy : s.phase ≠ .fault := running ▸ by decide
  rcases engineStep_cases s with ⟨-, e⟩ | ⟨-, -, e⟩ | ⟨-, -, e⟩ | ⟨-, -, -, e⟩ |
    ⟨-, -, -, k, -, e⟩ | ⟨-, hm, hb, absent, -, e⟩ | ⟨-, hm, hb, absent, -, e⟩ <;> rw [e] at h
  · cases h
  · cases h; cases fault
  · cases h; exact absurd fault healthy
  · cases h; exact namesItsUnit_emitUnit healthy fault
  · obtain ⟨b0, b1, e⟩ := exec_patternInstr k (highNibble (inByte s s.ip.toNat))
      (lowNibble (inByte s s.ip.toNat)) s
    rw [e] at h
    cases h
    exact namesItsUnit_emitUnit healthy fault
  · cases h; exact namesItsUnit_copyUnit ⟨hm, hb, absent⟩ healthy fault
  · cases h; exact ⟨by simp, fun _ => ⟨hm, hb, absent⟩⟩

/-- Settles O26: the cases of an engine step, each with the faults of its unit. -/
theorem engineFaultsNameTheirUnit : Obligations.EngineFaultsNameTheirUnit := by
  intro s t turn h fault
  obtain ⟨known, backref⟩ := namesItsUnit_of_engineStep turn.2 (step_of_engineTurn turn ▸ h) fault
  exact ⟨(List.Perm.swap ..).mem_iff.1 known, backref⟩

/-- Every unit answers a next state (R76, R205). -/
theorem exec_next (i : Instr) (s : State) : ∃ t, exec i s = .next t := by
  rcases exec_cases i s with ⟨_, -, e⟩ | ⟨_, -, e⟩ | ⟨_, _, _, _, _, -, e⟩ | ⟨_, _, _, -, e⟩ <;>
    exact ⟨_, e⟩

/-- Inside the payload a decoded unit is the engine's step. -/
theorem engineStep_of_unit {s : State} {i : Instr} {left : List Byte}
    (inside : payloadInside s = true)
    (unit : decode (selectSlot s.cmd s.mask) s.flags (payloadBytes s) = .ok (i, left)) :
    engineStep s = exec i s := by
  rw [engineStep, if_pos inside, unit]

/-- With the payload inside `IN` and `ip` at most `N` the engine's step answers too: it is a unit,
END or the fault entry of a truncated back-reference. -/
theorem engineStep_next {s : State} (inside : payloadInside s = true) :
    ∃ t, engineStep s = .next t := by
  cases unit : decode (selectSlot s.cmd s.mask) s.flags (payloadBytes s) with
  | ok result =>
    rw [engineStep_of_unit inside unit]
    exact exec_next result.1 s
  | error stop => exact ⟨_, engineStep_of_decode_error inside unit⟩

/-- An engine step that answers performed the unit the decoder read, or stopped where it read none.
-/
theorem engineStep_inv {s t : State} (h : engineStep s = .next t) :
    payloadInside s = true ∧
    ((∃ i left, decode (selectSlot s.cmd s.mask) s.flags (payloadBytes s) = .ok (i, left) ∧
        exec i s = .next t) ∨
      (∃ stop, decode (selectSlot s.cmd s.mask) s.flags (payloadBytes s) = .error stop ∧
        t = stopDecoding stop s)) := by
  by_cases inside : payloadInside s = true
  · refine ⟨inside, ?_⟩
    cases unit : decode (selectSlot s.cmd s.mask) s.flags (payloadBytes s) with
    | ok result =>
      exact .inl ⟨result.1, result.2, rfl, engineStep_of_unit inside unit ▸ h⟩
    | error stop =>
      rw [engineStep_of_decode_error inside unit] at h
      cases h
      exact .inr ⟨stop, rfl, rfl⟩
  · rw [engineStep, if_neg inside] at h
    cases h

/-- Settles O27: every unit answers, and the engine's step finds a unit or a reason to end the run.
-/
theorem engineStepNeverStops : Obligations.EngineStepNeverStops := by
  refine ⟨exec_next, fun s turn passed fits => ?_⟩
  rw [step_of_engineTurn turn]
  exact engineStep_next (payloadInside_iff.2 ⟨passed, fits⟩)

end Sys2Proof.Machine
end

section
/-! The two agents, over 20_memory.md section 3, 60_exceptions.md sections 3 and 4 and
70_reset_and_hazards.md: whose step it is, what a host access does and which have no meaning, the
interrupt level, the reset. -/

namespace Sys2Proof.Machine

/-! ### The engine's step does not see the host's script -/

/-- Appending does not look at the moves to come. -/
theorem appendBytes_hostMoves (bs : List Byte) (s : State) (ms : List HostMove) :
    appendBytes bs { s with hostMoves := ms } = { appendBytes bs s with hostMoves := ms } := by
  induction bs generalizing s with
  | nil => rfl
  | cons b bs ih => exact ih (appendByte b s)

/-- Nor does the copy loop. -/
theorem copyBack_hostMoves (d n : Nat) (s : State) (ms : List HostMove) :
    copyBack d n { s with hostMoves := ms } = { copyBack d n s with hostMoves := ms } := by
  induction n generalizing s with
  | zero => rfl
  | succ n ih => exact ih (appendByte (outByte s (s.op.toNat - d)) s)

/-- Nor does a unit of one payload byte. -/
theorem emitUnit_hostMoves (bs : List Byte) (s : State) (ms : List HostMove) :
    emitUnit bs { s with hostMoves := ms } = { emitUnit bs s with hostMoves := ms } := by
  simp only [emitUnit, appendBytes_hostMoves]
  split_ifs <;> rfl

/-- Nor does a back-reference. -/
theorem copyUnit_hostMoves (len d : Nat) (s : State) (ms : List HostMove) :
    copyUnit len d { s with hostMoves := ms } = { copyUnit len d s with hostMoves := ms } := by
  simp only [copyUnit, copyBack_hostMoves]
  split_ifs <;> rfl

/-- No unit looks at the moves to come. -/
theorem exec_hostMoves {i : Instr} {s t : State} (ms : List HostMove) (h : exec i s = .next t) :
    exec i { s with hostMoves := ms } = .next { t with hostMoves := ms } := by
  cases i with
  | cmd c => cases h; rfl
  | bref h l o => cases h; exact congrArg _ (copyUnit_hostMoves ..)
  | _ => cases h; exact congrArg _ (emitUnit_hostMoves ..)

/-- The engine's step does not look at the moves to come. -/
theorem engineStep_hostMoves {s t : State} (ms : List HostMove) (h : engineStep s = .next t) :
    engineStep { s with hostMoves := ms } = .next { t with hostMoves := ms } := by
  rcases engineStep_inv h with ⟨inside, ⟨i, left, unit, answer⟩ | ⟨stop, none, rfl⟩⟩
  · exact (engineStep_of_unit (s := { s with hostMoves := ms }) inside unit).trans
      (exec_hostMoves ms answer)
  · refine (engineStep_of_decode_error (s := { s with hostMoves := ms }) inside none).trans ?_
    cases stop <;> rfl

/-- Settles O5: an access is the step; in RUN the engine's step is the step in the three other
cases, and it does not see the script. -/
theorem hostAccessComesBeforeEngineStep : Obligations.HostAccessComesBeforeEngineStep := by
  refine ⟨fun s a rest => step_of_access, fun s t running h => ?_⟩
  have answer : engineStep { s with hostMoves := [] } = .next t :=
    (step_of_engineTurn (s := { s with hostMoves := [] }) ⟨rfl, running⟩).symm.trans h
  exact ⟨fun rest moves => (step_of_awaitEnd running moves).trans
      (engineStep_hostMoves (s := { s with hostMoves := [] }) s.hostMoves answer),
    fun rest moves => (step_of_letStep running moves).trans
      (engineStep_hostMoves (s := { s with hostMoves := [] }) rest answer)⟩

/-- Settles O6: outside RUN the step is a host access or takes a waiting move off, and an access
that neither writes nor resets changes nothing of the engine. -/
theorem quiescentOutsideRun : Obligations.QuiescentOutsideRun := by
  intro s idle
  refine ⟨fun moves => by simp [step, turn, moves, idle],
    fun rest moves => by simp [step, turn, moves, idle],
    fun rest moves => by simp [step, turn, moves, idle, noteEnd], fun t reads h => ?_⟩
  rcases step_cases s with ⟨running, -⟩ | ⟨a, rest, moves, e⟩ |
    ⟨-, ⟨-, e⟩ | ⟨rest, -, e⟩ | ⟨rest, -, e⟩⟩
  case inl => exact absurd running idle
  case inr.inl =>
    rw [e] at h
    have kept : t = { s with hostMoves := rest, hostData := t.hostData, endSeen := t.endSeen } :=
      hostAccess_read (reads a rest moves) h
    have script : t.hostMoves = rest := congrArg State.hostMoves kept
    rw [script]
    exact kept
  all_goals
    rw [e] at h
    cases h
    rfl

/-! ### Resets, register writes and the interrupt -/

/-- Settles O3: the reset is an access, and what it leaves has nothing written in `IN` and `OUT`. -/
theorem resetEndsRunAtOnce : Obligations.ResetEndsRunAtOnce :=
  fun _ _ moves => ⟨_, step_of_access moves, rfl, rfl, rfl, fun _ => ⟨rfl, rfl⟩⟩

/-- The aligned offsets from 0x50 on name no register (R36). -/
theorem csrAt_of_unassigned : ∀ off < 0x80, 0x50 ≤ off → csrAt off = .unassigned := by decide

/-- The registers a write leaves alone: the read-only ones and the unassigned (R35). -/
theorem writeCsr_readOnly : ∀ off ∈ [0x04, 0x08, 0x0C, 0x14, 0x18, 0x20, 0x48, 0x4C],
    ∀ (w : Word) (s : State), writeCsr (csrAt off) w s = s := by
  simp [csrAt, writeCsr]

/-- Settles O44: every such offset is inside the window and aligned, and names a register that a
write leaves alone. -/
theorem readOnlyAndUnassignedOffsetsIgnoreWrites :
    Obligations.ReadOnlyAndUnassignedOffsetsIgnoreWrites := by
  refine fun s off => ⟨fun which w rest write => ?_, fun ⟨from50, inside, aligned⟩ => ?_⟩
  · rcases which with listed | ⟨from50, inside, aligned⟩
    · have word : ∀ off ∈ [0x04, 0x08, 0x0C, 0x14, 0x18, 0x20, 0x48, 0x4C],
          off < csrWindow ∧ off % 4 = 0 := by decide
      rw [step_of_writesNext write (word off listed).1 (word off listed).2,
        writeCsr_readOnly off listed]
    · rw [step_of_writesNext write inside aligned, csrAt_of_unassigned off inside from50, writeCsr]
  · refine readReturns_of_csrValue inside aligned ?_
    rw [csrAt_of_unassigned off inside from50]
    rfl

/-- The interrupt output is high exactly when it is enabled and a run has ended (R210). -/
theorem irqLevel_iff (s : State) :
    irqLevel s = true ↔ s.irqEn = true ∧ (s.phase = .done ∨ s.phase = .fault) := by
  rw [irqLevel, Bool.and_eq_true, Phase.ended_iff]

/-- The interrupt output is low while it is disabled (R210). -/
theorem irqLevel_of_disabled {s : State} (disabled : s.irqEn = false) : irqLevel s = false := by
  rw [irqLevel, disabled, Bool.false_and]

/-- Every write of CTRL sets irq_en (R37). -/
theorem writeCtrl_irqEn (w : Word) (s : State) : (writeCtrl w s).irqEn = w.getLsbD 1 := by
  simp only [writeCtrl, startRun, acknowledge]
  split_ifs <;> rfl

/-- An acknowledgement without START leaves no ended run (R37). -/
theorem writeCtrl_acknowledges {w : Word} (s : State) (noStart : w.getLsbD 0 = false)
    (ack : w.getLsbD 2 = true) : (writeCtrl w s).phase.ended = false := by
  simp only [writeCtrl, noStart, ack, acknowledge]
  split_ifs with h1 h2 <;> simp_all [Phase.ended]

/-- A START that is not ignored is refused exactly when the payload does not fit (R110, R204). -/
theorem writeCtrl_start_ended {w : Word} {s : State} (start : w.getLsbD 0 = true)
    (idle : s.phase ≠ .run) :
    (writeCtrl w s).phase.ended = true ↔ s.cfg.inCap < s.inLen.toNat := by
  rw [writeCtrl, if_pos ⟨start, idle⟩, startRun_eq_afterStart]
  simp only [afterStart]
  split_ifs with full <;> simp [Phase.ended, full]

/-- Settles O49: the level by its definition, and what a write of CTRL makes of irq_en and the
phase. -/
theorem interruptLevelFollowsPhase : Obligations.InterruptLevelFollowsPhase := by
  refine ⟨irqLevel_iff, fun s t w rest write h => ?_⟩
  rw [step_of_writesNext write (by decide) rfl] at h
  cases h
  refine ⟨fun noStart ack => ?acknowledged, fun disabled => ?disabled, fun start idle => ?started⟩
  case acknowledged =>
    exact (congrArg _ (writeCtrl_acknowledges _ noStart ack)).trans (Bool.and_false _)
  case disabled => exact irqLevel_of_disabled ((writeCtrl_irqEn w _).trans disabled)
  case started =>
    rw [irqLevel, Bool.and_eq_true]
    exact and_congr (iff_of_eq (congrArg (· = true) (writeCtrl_irqEn w _)))
      (writeCtrl_start_ended (s := { s with hostMoves := rest }) start idle)

/-! ### Accesses to the memories -/

/-- Settles O48: each clause is a branch of the access, taken in the order of the checks. -/
theorem hostMemoryAccessStops : Obligations.HostMemoryAccessStops := by
  intro s a b w width m rest moves
  rw [step_of_access moves]
  refine ⟨fun running h => ?_, fun idle beyond h => ?_, fun idle beyond h => ?_,
    fun idle inside unseen h => ?_, fun idle inside seen beyond h => ?_, fun outside h => ?_⟩
  · simp only [List.mem_cons, List.not_mem_nil, or_false] at h
    rcases h with rfl | rfl | rfl | rfl <;> exact if_pos running
  · simp only [List.mem_cons, List.not_mem_nil, or_false] at h
    rcases h with rfl | rfl <;> exact (if_neg idle).trans (if_pos beyond)
  · simp only [List.mem_cons, List.not_mem_nil, or_false] at h
    rcases h with rfl | rfl <;> exact (if_neg idle).trans (if_pos beyond)
  · subst h
    exact (if_neg idle).trans ((if_neg inside.not_ge).trans (if_pos unseen))
  · subst h
    exact (if_neg idle).trans ((if_neg inside.not_ge).trans
      ((if_neg (by simp [seen])).trans (if_pos beyond)))
  · simp only [List.mem_cons, List.not_mem_nil, or_false] at h
    rcases h with rfl | rfl <;> exact if_pos outside

/-- CTRL stands at 0x00 alone (R36). -/
theorem csrAt_eq_ctrl_iff (off : Nat) : csrAt off = .ctrl ↔ off = 0x00 := by
  unfold csrAt
  split <;> simp_all

/-- STATUS stands at 0x04 alone (R36). -/
theorem csrAt_eq_status_iff (off : Nat) : csrAt off = .status ↔ off = 0x04 := by
  unfold csrAt
  split <;> simp_all

/-- A register write clears what the host has seen exactly when it is a START that is not ignored
(R110, log entry 17). -/
theorem writeCsr_endSeen (r : Csr) (w : Word) (s : State) :
    (writeCsr r w s).endSeen = true ↔
      s.endSeen = true ∧ ¬ (s.phase ≠ .run ∧ r = .ctrl ∧ w.getLsbD 0 = true) := by
  rcases writeCsr_cases r w s with ⟨ctrl, start, idle, e⟩ | ⟨-, ignored, -, e⟩ | ⟨-, ignored, e⟩ |
    ⟨other, -, _, _, _, e⟩ | ⟨other, e⟩ <;> rw [e]
  · rw [startRun_eq_afterStart]
    exact ⟨nofun, fun ⟨_, kept⟩ => absurd ⟨idle, ctrl, start⟩ kept⟩
  · exact ⟨fun seen => ⟨seen, fun ⟨idle, _, start⟩ => ignored ⟨start, idle⟩⟩, And.left⟩
  · exact ⟨fun seen => ⟨seen, fun ⟨idle, _, start⟩ => ignored ⟨start, idle⟩⟩, And.left⟩
  · exact ⟨fun seen => ⟨seen, fun ⟨_, ctrl, _⟩ => other ctrl⟩, And.left⟩
  · exact ⟨fun seen => ⟨seen, fun ⟨_, ctrl, _⟩ => other ctrl⟩, And.left⟩

/-- A register read shows the end exactly when it reads STATUS in DONE or FAULT (R62, log entry 17).
-/
theorem showsEnd_iff (r : Csr) (s : State) :
    showsEnd r s = true ↔ s.phase.ended = true ∧ r = .status := by
  simp [showsEnd, and_comm]

/-- What the host has seen after an access: a START that is not ignored and a reset clear it, and a
read of STATUS in DONE or FAULT sets it (log entry 17). -/
theorem hostAccess_endSeen {a : HostAccess} {s t : State} (h : hostAccess a s = .next t) :
    t.endSeen = true ↔
      (s.endSeen = true ∧ a ≠ .reset ∧
        ¬ (s.phase ≠ .run ∧ ∃ w, a = .csrWrite 4 0x00 w ∧ w.getLsbD 0 = true)) ∨
      (s.phase.ended = true ∧ a = .csrRead 4 0x04) := by
  rcases hostAccess_next h with ⟨off, w, rfl, -, -, rfl⟩ | ⟨off, rfl, -, -, rfl⟩ |
    ⟨_, _, rfl, -, -, rfl⟩ | ⟨_, rfl, -, -, rfl⟩ | ⟨_, _, rfl, -, -, rfl⟩ |
    ⟨_, rfl, -, -, -, -, rfl⟩ | ⟨rfl, rfl⟩
  case inl => simp [writeCsr_endSeen, csrAt_eq_ctrl_iff]
  case inr.inl => simp [showsEnd_iff, csrAt_eq_status_iff]
  all_goals simp [resetEngine, State.resetWith]

/-- An engine step keeps what the host has seen (log entry 17). -/
theorem EngineResult.endSeen {s t : State} (result : EngineResult s t) : t.endSeen = s.endSeen := by
  cases result <;> rfl

/-- Settles O47: the branches of an access, the bytes it wrote, and what each kind of step makes of
the record that the host has seen the end. -/
theorem hostMemoryAccessOutsideRun : Obligations.HostMemoryAccessOutsideRun := by
  refine ⟨fun s a b rest idle => ⟨fun moves inside => ?inWrite, fun moves inside => ?outWrite,
    fun moves inside => ?inRead, fun moves inside below seen => ?outRead⟩, fun s t h => ?seen⟩
  case inWrite =>
    refine ⟨{ s with hostMoves := rest, inMem := Memory.write s.inMem a b }, ?_, rfl,
      inByte_of_read (Memory.read_write_same ..), fun x hx => ?_⟩
    · exact (step_of_access moves).trans ((if_neg idle).trans (if_neg inside.not_ge))
    · rw [inByte, Memory.read_write_other _ _ hx]
      rfl
  case outWrite =>
    refine ⟨{ s with hostMoves := rest, outMem := Memory.write s.outMem a b }, ?_, rfl,
      outByte_of_read (Memory.read_write_same ..), fun x hx => ?_⟩
    · exact (step_of_access moves).trans ((if_neg idle).trans (if_neg inside.not_ge))
    · rw [outByte, Memory.read_write_other _ _ hx]
      rfl
  case inRead => exact (step_of_access moves).trans ((if_neg idle).trans (if_neg inside.not_ge))
  case outRead =>
    exact (step_of_access moves).trans ((if_neg idle).trans ((if_neg inside.not_ge).trans
      ((if_neg (by simp [seen])).trans (if_neg below.not_ge))))
  case seen =>
    rw [← Phase.ended_iff]
    rcases step_cases s with ⟨running, turn⟩ | ⟨a, rest, moves, e⟩ | ⟨idle, turn⟩
    · rcases turn with ⟨moves, e⟩ | ⟨rest, moves, e⟩ | ⟨rest, moves, e⟩ <;>
        simp [(engineResult_of_engineStep (e ▸ h)).endSeen, moves, running, Phase.ended, WritesNext,
          ReadsNext]
    · rw [hostAccess_endSeen (e ▸ h)]
      simp [moves, WritesNext, ReadsNext]
    · rcases turn with ⟨moves, e⟩ | ⟨rest, moves, e⟩ | ⟨rest, moves, e⟩ <;> rw [e] at h <;>
        cases h <;> simp [moves, WritesNext, ReadsNext, noteEnd]

end Sys2Proof.Machine
end

section
/-! What every step keeps: the machine invariant of 10_state.md and 20_memory.md, and the bound of
00_scope.md section 4 on the output. -/

namespace Sys2Proof.Machine

/-- Everything a step that answers can be: an engine step in RUN, a host access, or outside RUN a
change of the host's own fields (log entries 4, 17). -/
theorem step_next {s t : State} (h : step s = .next t) :
    (∃ rest, s.phase = .run ∧ engineStep { s with hostMoves := rest } = .next t) ∨
    (∃ a rest, hostAccess a { s with hostMoves := rest } = .next t) ∨
    (s.phase ≠ .run ∧ ∃ rest seen, t = { s with hostMoves := rest, endSeen := seen }) := by
  rcases step_cases s with ⟨running, ⟨-, e⟩ | ⟨_, -, e⟩ | ⟨rest, -, e⟩⟩ | ⟨a, rest, -, e⟩ |
    ⟨idle, ⟨-, e⟩ | ⟨rest, -, e⟩ | ⟨rest, -, e⟩⟩ <;> rw [e] at h
  · exact .inl ⟨s.hostMoves, running, h⟩
  · exact .inl ⟨s.hostMoves, running, h⟩
  · exact .inl ⟨rest, running, h⟩
  · exact .inr (.inl ⟨a, rest, h⟩)
  all_goals
    cases h
    exact .inr (.inr ⟨idle, _, _, rfl⟩)

/-! ### The invariant and the engine -/

/-- `mask` is legal where the next byte is a command byte (R25, R111). -/
theorem zero_mem_legalMasks : (0x00 : Byte) ∈ legalMasks := by decide

/-- `mask` is legal after a command byte (R25, R112). -/
theorem top_mem_legalMasks : (0x80 : Byte) ∈ legalMasks := by decide

/-- Completing a unit keeps `mask` legal (R25, R113). -/
theorem legalMasks_shift : ∀ m ∈ legalMasks, m >>> 1 ∈ legalMasks := by decide

section
variable {s : State} (inv : Inv s) (running : s.phase = .run)
include inv running

/-- END keeps the invariant (R114). -/
theorem Inv.endRun : Inv (endRun s) := by
  obtain ⟨-, -, cause, faultIp, -, -⟩ := inv.running running
  exact { inv with running := nofun, finished := fun _ => ⟨cause, faultIp⟩, faulted := nofun }

/-- A fault entry with a cause keeps it (R206). -/
theorem Inv.atFault {c : Cause} (named : c ≠ .none) : Inv (atFault c s) := by
  obtain ⟨-, -, -, -, report, -⟩ := inv.running running
  exact { inv with running := nofun, finished := nofun, faulted := fun _ => ⟨named, rfl, report⟩ }

/-- A command byte keeps it (R112). -/
theorem Inv.command (c : Byte) (inside : InPayload s) :
    Inv { s with cmd := c, ip := s.ip + 1, mask := 0x80 } := by
  obtain ⟨-, rest⟩ := inv.running running
  obtain ⟨hip, -⟩ := ip_advances (t := { s with ip := s.ip + 1 }) rfl inside.1
  exact { inv with
    maskLegal := top_mem_legalMasks
    running := fun _ => ⟨hip, rest⟩
    finished := fun h => absurd (running.symm.trans h) (by decide)
    faulted := fun h => absurd (running.symm.trans h) (by decide) }

/-- So does a completed unit that consumed `n` bytes below `N` and appended `k` bytes that fit, if
what it made of `OUT` is canonical, inside its space and written below the new `op` (R22, R23, R61).
-/
theorem Inv.completed {m : Memory} {k n : Nat} (consumed : s.ip.toNat + n ≤ s.inLen.toNat)
    (room : s.op.toNat + k ≤ s.cfg.outCap)
    (facts : Memory.wf m ∧ (∀ c ∈ m, c.1 < s.cfg.outCap) ∧
      ∀ a < (s.op + BitVec.ofNat 32 k).toNat, (Memory.read m a).isSome) :
    Inv { s with
      outMem := m
      op := s.op + BitVec.ofNat 32 k
      ip := s.ip + BitVec.ofNat 32 n
      mask := s.mask >>> 1 } := by
  obtain ⟨-, rest⟩ := inv.running running
  obtain ⟨hip, -⟩ := ip_advances (t := { s with ip := s.ip + BitVec.ofNat 32 n }) rfl consumed
  obtain ⟨wf, bound, written⟩ := facts
  exact { inv with
    outWf := wf
    outBound := bound
    maskLegal := legalMasks_shift _ inv.maskLegal
    opFits := (op_toNat_add (lt_two_pow_of_le_outCap inv.params room)).trans_le room
    outWritten := written
    running := fun _ => ⟨hip, rest⟩
    finished := fun h => absurd (running.symm.trans h) (by decide)
    faulted := fun h => absurd (running.symm.trans h) (by decide) }

/-- Every engine step of a run keeps the invariant: a fault it enters has a unit's cause. -/
theorem Inv.engineStep {t : State} (h : engineStep s = .next t) : Inv t := by
  have hcap : s.cfg.outCap < 2 ^ 32 := lt_two_pow_of_le_outCap inv.params le_rfl
  have named : t.phase = .fault → t.cause ≠ .none := fun fault none => by
    obtain ⟨known, -⟩ := namesItsUnit_of_engineStep running h fault
    simp [none] at known
  cases engineResult_of_engineStep h with
  | ended => exact inv.endRun running
  | faulted c => exact inv.atFault running (named rfl)
  | command c inside slot => exact inv.command running c inside
  | emitted bs inside noBackref room =>
    have facts := appendBytes_outMem_facts inv.outWf inv.outBound room hcap inv.outWritten
    rw [congrArg State.op (appendBytes_shape bs s)] at facts
    exact inv.completed running inside.1 room facts
  | copied len d backref inside positive reach room =>
    have facts := copyBack_outMem_facts (d := d) inv.outWf inv.outBound room hcap inv.outWritten
    rw [congrArg State.op (copyBack_shape d len s)] at facts
    exact inv.completed running inside room facts

end

/-! ### The invariant and the host -/

/-- The state after any reset meets the invariant (R230). -/
theorem inv_resetWith {p : Params} (valid : p.valid) (k n : Nat) : Inv (State.resetWith p k n) where
  params := valid
  inWf := Memory.wf_nil
  inBound := nofun
  outWf := Memory.wf_nil
  outBound := nofun
  maskLegal := zero_mem_legalMasks
  opFits := Nat.zero_le _
  outWritten := nofun
  running := nofun
  finished := nofun
  faulted := nofun

/-- Settles O37: the reset state's fields; the parameters of State.reset are valid. -/
theorem resetMeetsMachineInvariant : Obligations.ResetMeetsMachineInvariant :=
  ⟨fun _ k n valid => inv_resetWith valid k n, inv_resetWith (by decide) 0 0⟩

/-- The host's own fields are free but in a run, where it has seen no end (log entries 4, 17). -/
theorem Inv.hostFields {s : State} (inv : Inv s) (ms : List HostMove) (d : Word) {seen : Bool}
    (unseen : s.phase = .run → seen = false) :
    Inv { s with hostMoves := ms, hostData := d, endSeen := seen } := by
  refine { inv with running := fun running => ?_ }
  obtain ⟨passed, fits, cause, faultIp, report, -⟩ := inv.running running
  exact ⟨passed, fits, cause, faultIp, report, unseen running⟩

/-- START keeps the invariant, refused or not (R110, R204). -/
theorem Inv.startRun {s : State} (inv : Inv s) : Inv (startRun s) := by
  rcases startRun_cases s with ⟨full, e⟩ | ⟨fits, e⟩ <;> rw [e]
  · exact { inv with
      maskLegal := zero_mem_legalMasks
      opFits := Nat.zero_le _
      outWritten := nofun
      running := nofun
      finished := nofun
      faulted := fun _ => ⟨nofun, rfl, rfl⟩ }
  · exact { inv with
      maskLegal := zero_mem_legalMasks
      opFits := Nat.zero_le _
      outWritten := nofun
      running := fun _ => ⟨Nat.zero_le _, fits, rfl, rfl, rfl, rfl⟩
      finished := nofun
      faulted := nofun }

/-- Every register write keeps the invariant: the lengths and the table change only outside RUN. -/
theorem Inv.writeCsr {s : State} (inv : Inv s) (r : Csr) (w : Word) : Inv (writeCsr r w s) := by
  rcases writeCsr_cases r w s with ⟨-, -, -, e⟩ | ⟨-, -, -, e⟩ | ⟨-, -, e⟩ |
    ⟨-, idle, n, x, f, e⟩ | ⟨-, e⟩ <;> rw [e]
  · exact Inv.startRun { inv with }
  · exact { inv with running := nofun, finished := nofun, faulted := nofun }
  · exact { inv with }
  · exact { inv with running := fun running => absurd running idle }
  · exact inv

/-- Every host access that answers keeps the invariant. -/
theorem Inv.hostAccess {a : HostAccess} {s t : State} (inv : Inv s)
    (h : hostAccess a s = .next t) : Inv t := by
  have unseen (running : s.phase = .run) : s.endSeen = false := by
    obtain ⟨-, -, -, -, -, seen⟩ := inv.running running
    exact seen
  rcases hostAccess_next h with ⟨off, w, -, -, -, rfl⟩ | ⟨off, -, -, -, rfl⟩ |
    ⟨x, b, -, -, inside, rfl⟩ | ⟨x, -, -, -, rfl⟩ | ⟨x, b, -, -, inside, rfl⟩ |
    ⟨x, -, -, -, -, -, rfl⟩ | ⟨-, rfl⟩
  · exact inv.writeCsr _ w
  · refine inv.hostFields _ _ fun running => ?_
    simp [unseen running, showsEnd, running, Phase.ended]
  · exact { inv with
      inWf := Memory.write_wf x b inv.inWf
      inBound := Memory.write_bound inside inv.inBound }
  · exact inv.hostFields _ _ unseen
  · exact { inv with
      outWf := Memory.write_wf x b inv.outWf
      outBound := Memory.write_bound inside inv.outBound
      outWritten := fun y below => Memory.isSome_write (inv.outWritten y below) }
  · exact inv.hostFields _ _ unseen
  · exact (inv_resetWith inv.params _ _).hostFields _ _ nofun

/-- Settles O36: the engine's step, a host access and a change of the host's own fields each keep
the invariant. -/
theorem everyStepKeepsMachineInvariant : Obligations.EveryStepKeepsMachineInvariant := by
  intro s t inv h
  have script (rest : List HostMove) : Inv { s with hostMoves := rest } := { inv with }
  rcases step_next h with ⟨rest, running, e⟩ | ⟨a, rest, e⟩ | ⟨idle, rest, seen, rfl⟩
  · exact (script rest).engineStep running e
  · exact (script rest).hostAccess e
  · exact inv.hostFields rest s.hostData fun running => absurd running idle

/-! ### The bound on the output -/

/-- From `s` to `t` the bound of R10 is kept, and with room for nine bytes per payload byte no
overflow is recorded. -/
abbrev KeepsBound (s t : State) : Prop :=
  NineTimes t ∧ (9 * s.inLen.toNat ≤ s.cfg.outCap → s.cause ≠ .outputOverflow →
    t.cause ≠ .outputOverflow)

/-- A step that leaves `op` and `ip` alone, or clears `op`, and records no overflow keeps the bound.
-/
theorem keepsBound_of_cursors {s t : State} (nine : NineTimes s)
    (cursors : t.op = 0 ∨ (t.op = s.op ∧ t.ip = s.ip))
    (cause : t.cause = s.cause ∨ t.cause ≠ .outputOverflow) : KeepsBound s t := by
  refine ⟨?_, fun _ fresh => cause.elim (fun same => same ▸ fresh) id⟩
  rcases cursors with cleared | ⟨op, ip⟩
  · rw [NineTimes, cleared]
    exact Nat.zero_le _
  · rwa [NineTimes, op, ip]

section
variable {s : State} (valid : s.cfg.valid) (nine : NineTimes s)
include valid nine

/-- A completed unit of `n` payload bytes that appended at most nine bytes for each keeps the bound.
-/
theorem keepsBound_of_completed {t : State} {k n : Nat} (few : k ≤ 9 * n)
    (consumed : s.ip.toNat + n ≤ s.inLen.toNat) (room : s.op.toNat + k ≤ s.cfg.outCap)
    (op : t.op = s.op + BitVec.ofNat 32 k) (ip : t.ip = s.ip + BitVec.ofNat 32 n)
    (cause : t.cause = s.cause) : KeepsBound s t := by
  have hop : t.op.toNat = s.op.toNat + k :=
    op ▸ op_toNat_add (lt_two_pow_of_le_outCap valid room)
  obtain ⟨-, hip⟩ := ip_advances ip consumed
  exact ⟨by unfold NineTimes at *; omega, fun _ fresh => cause ▸ fresh⟩

/-- A unit of one payload byte that emits at most nine bytes keeps the bound. -/
theorem keepsBound_emitUnit {bs : List Byte} (inside : InPayload s) (few : bs.length ≤ 9) :
    KeepsBound s (emitUnit bs s) := by
  rcases emitUnit_cases bs s with ⟨full, e⟩ | ⟨room, e⟩ <;> rw [e]
  · refine ⟨nine, fun large => ?_⟩
    unfold NineTimes at nine
    omega
  · exact keepsBound_of_completed valid nine few inside.1 room rfl rfl rfl

/-- A back-reference of at most eighteen bytes keeps the bound, since it takes two payload bytes. -/
theorem keepsBound_copyUnit {len : Nat} (d : Nat) (few : len ≤ 18) :
    KeepsBound s (copyUnit len d s) := by
  rcases copyUnit_cases len d s with ⟨-, e⟩ | ⟨-, -, e⟩ | ⟨two, -, full, e⟩ | ⟨two, -, room, e⟩ <;>
    rw [e]
  · exact keepsBound_of_cursors nine (.inr ⟨rfl, rfl⟩) (.inr nofun)
  · exact keepsBound_of_cursors nine (.inr ⟨rfl, rfl⟩) (.inr nofun)
  · refine ⟨nine, fun large => ?_⟩
    unfold NineTimes at nine
    omega
  · exact keepsBound_of_completed valid nine few two room rfl rfl rfl

/-- Every engine step keeps the bound. -/
theorem keepsBound_of_engineStep {t : State} (h : engineStep s = .next t) : KeepsBound s t := by
  rcases engineStep_cases s with ⟨-, e⟩ | ⟨-, -, e⟩ | ⟨inside, -, e⟩ | ⟨inside, -, -, e⟩ |
    ⟨inside, -, -, k, -, e⟩ | ⟨-, -, -, -, -, e⟩ | ⟨-, -, -, -, -, e⟩ <;> rw [e] at h
  · cases h
  · cases h; exact keepsBound_of_cursors nine (.inr ⟨rfl, rfl⟩) (.inl rfl)
  · cases h
    obtain ⟨-, hip⟩ := ip_advances (t := { s with ip := s.ip + 1 }) rfl inside.1
    refine ⟨?_, fun _ fresh => fresh⟩
    unfold NineTimes at *
    simp only at hip ⊢
    omega
  · cases h; exact keepsBound_emitUnit valid nine inside (by simp)
  · obtain ⟨b0, b1, e⟩ := exec_patternInstr k (highNibble (inByte s s.ip.toNat))
      (lowNibble (inByte s s.ip.toNat)) s
    rw [e] at h
    cases h
    exact keepsBound_emitUnit valid nine inside (by simp)
  · rw [exec_bref] at h
    cases h
    exact keepsBound_copyUnit valid nine _
      (Nat.add_le_add_right (Nat.le_of_lt_succ (BitVec.isLt _)) 3)
  · cases h; exact keepsBound_of_cursors nine (.inr ⟨rfl, rfl⟩) (.inr nofun)

end

/-- A register write moves no cursor but at START, which clears them and records no overflow. -/
theorem writeCsr_cursors (r : Csr) (w : Word) (s : State) :
    ((writeCsr r w s).op = 0 ∨ ((writeCsr r w s).op = s.op ∧ (writeCsr r w s).ip = s.ip)) ∧
    ((writeCsr r w s).cause = s.cause ∨ (writeCsr r w s).cause ≠ .outputOverflow) := by
  rcases writeCsr_cases r w s with ⟨-, -, -, e⟩ | ⟨-, -, -, e⟩ | ⟨-, -, e⟩ |
    ⟨-, -, _, _, _, e⟩ | ⟨-, e⟩ <;> rw [e]
  case inl =>
    rcases startRun_cases { s with irqEn := w.getLsbD 1 } with ⟨-, e⟩ | ⟨-, e⟩ <;> rw [e] <;>
      exact ⟨.inl rfl, .inr nofun⟩
  all_goals exact ⟨.inr ⟨rfl, rfl⟩, .inl rfl⟩

/-- Every host access keeps the bound. -/
theorem keepsBound_of_hostAccess {a : HostAccess} {s t : State} (nine : NineTimes s)
    (h : hostAccess a s = .next t) : KeepsBound s t := by
  rcases hostAccess_next h with ⟨off, w, -, -, -, rfl⟩ | ⟨_, -, -, -, rfl⟩ |
    ⟨_, _, -, -, -, rfl⟩ | ⟨_, -, -, -, rfl⟩ | ⟨_, _, -, -, -, rfl⟩ |
    ⟨_, -, -, -, -, -, rfl⟩ | ⟨-, rfl⟩
  case inl =>
    obtain ⟨cursors, cause⟩ := writeCsr_cursors (csrAt off) w s
    exact keepsBound_of_cursors nine cursors cause
  case inr.inr.inr.inr.inr.inr => exact keepsBound_of_cursors nine (.inl rfl) (.inr nofun)
  all_goals exact keepsBound_of_cursors nine (.inr ⟨rfl, rfl⟩) (.inl rfl)

/-- Settles O35: a unit appends at most nine bytes for each payload byte it consumes, and no other
step moves the cursors but to clear them. -/
theorem outputIsAtMostNineTimesInput : Obligations.OutputIsAtMostNineTimesInput := by
  refine ⟨fun s t valid nine h => ?_, fun _ _ _ => Nat.zero_le _, fun _ => Nat.zero_le _⟩
  rcases step_next h with ⟨rest, -, e⟩ | ⟨a, rest, e⟩ | ⟨-, rest, seen, rfl⟩
  · exact keepsBound_of_engineStep (s := { s with hostMoves := rest }) valid nine e
  · exact keepsBound_of_hostAccess (s := { s with hostMoves := rest }) nine e
  · exact keepsBound_of_cursors nine (.inr ⟨rfl, rfl⟩) (.inl rfl)

end Sys2Proof.Machine
end

section
/-! Whole runs, over 41_command.md section 3: how long a run takes (R115) and what its result
depends on (R116). -/

namespace Sys2Proof.Machine

/-! ### The length of a run -/

/-- A run whose end an engine step has just reached stays there for any number of steps (R217). -/
theorem runFor_of_ended {s : State} (ended : s.phase.ended = true) (moves : s.hostMoves = [])
    (k : Nat) : runFor k s = .next s :=
  runFor_quiet (fun running => by simp [running, Phase.ended] at ended) moves k

/-- A step of a run ends it, or goes on with fewer payload bytes left (R22, R114). -/
theorem step_ends_or_consumes {s : State} (turn : EngineTurn s)
    (passed : s.ip.toNat ≤ s.inLen.toNat) (fits : s.inLen.toNat ≤ s.cfg.inCap) :
    ∃ t, step s = .next t ∧ t.hostMoves = [] ∧
      (t.phase.ended = true ∨
        (t.phase = .run ∧ t.ip.toNat ≤ t.inLen.toNat ∧ t.inLen.toNat ≤ t.cfg.inCap ∧
          t.inLen.toNat - t.ip.toNat < s.inLen.toNat - s.ip.toNat)) := by
  obtain ⟨t, h⟩ := engineStepNeverStops.2 s turn passed fits
  obtain ⟨-, -, hN, -, -, hcfg, -, hmoves, -⟩ := engineNeverWritesItsInputs s t turn h
  refine ⟨t, h, hmoves.trans turn.1, ?_⟩
  rw [hN, hcfg]
  rcases engineStepConsumesPayload s t turn passed h with
    ⟨running, below, inside, consumed⟩ | ⟨ended, -⟩
  · have grows : s.ip.toNat < t.ip.toNat := by
      rw [consumed]
      split <;> omega
    exact .inr ⟨running, inside, fits, by omega⟩
  · exact .inl ended

/-- With at most `n` payload bytes left a run ends within `n + 1` steps (R115). -/
theorem runFor_ends {n : Nat} {s : State} (turn : EngineTurn s)
    (passed : s.ip.toNat ≤ s.inLen.toNat) (fits : s.inLen.toNat ≤ s.cfg.inCap)
    (left : s.inLen.toNat - s.ip.toNat ≤ n) :
    ∃ t, runFor (n + 1) s = .next t ∧ t.phase.ended = true := by
  induction n generalizing s with
  | zero =>
    obtain ⟨t, h, -, ended | ⟨-, -, -, fewer⟩⟩ := step_ends_or_consumes turn passed fits
    · exact ⟨t, runFor_of_next 0 h, ended⟩
    · omega
  | succ n ih =>
    obtain ⟨t, h, moves, outcome⟩ := step_ends_or_consumes turn passed fits
    rw [runFor_of_next _ h]
    rcases outcome with ended | ⟨running, inside, fits', fewer⟩
    · exact ⟨t, runFor_of_ended ended moves (n + 1), ended⟩
    · exact ih ⟨moves, running⟩ inside fits' (by omega)

/-- Settles O33: every step of a run consumes a payload byte or ends it. -/
theorem runEndsWithinPayloadLength : Obligations.RunEndsWithinPayloadLength :=
  fun _ turn passed fits => runFor_ends turn passed fits le_rfl

/-! ### What a run depends on -/

section
variable {s t : State} (same : SameRun s t)
include same

/-- Two engines alike fetch the same payload bytes (R51). -/
theorem SameRun.payloadBytes : payloadBytes t = payloadBytes s := by
  unfold Machine.payloadBytes
  rw [same.ip, same.inLen]
  split_ifs with two one
  · rw [same.payload _ (Nat.lt_of_succ_lt two), same.payload _ two]
  · rw [same.payload _ one]
  · rfl

/-- Two engines alike are alike after END (R114). -/
theorem SameRun.endRun : SameRun (endRun s) (endRun t) := by
  have report : lengthMatches t = lengthMatches s := by
    rw [lengthMatches, lengthMatches, same.op, same.expLen]
  exact { same with phase := rfl, lenMatch := report }

/-- They are alike after a fault entry (R206). -/
theorem SameRun.enterFault (c : Cause) : SameRun (enterFault c s) (enterFault c t) :=
  { same with phase := rfl, cause := rfl, faultIp := same.ip }

/-- They are alike after a command byte (R112). -/
theorem SameRun.command (c : Byte) :
    SameRun { s with cmd := c, ip := s.ip + 1, mask := 0x80 }
      { t with cmd := c, ip := t.ip + 1, mask := 0x80 } :=
  { same with ip := congrArg (· + 1) same.ip, cmd := rfl, mask := rfl }

/-- Completing a unit keeps them alike (R113). -/
theorem SameRun.completeUnit (n : Nat) : SameRun (completeUnit n s) (completeUnit n t) :=
  { same with
    ip := congrArg (· + BitVec.ofNat 32 n) same.ip
    mask := congrArg (fun m : Byte => m >>> 1) same.mask }

/-- They are alike after an append: the new byte is the same, and so are those before it (R52). -/
theorem SameRun.appendByte (b : Byte) : SameRun (appendByte b s) (appendByte b t) := by
  refine { same with op := congrArg (· + 1) same.op, output := fun a below => ?_ }
  have le : a ≤ s.op.toNat := by
    rw [appendByte_op, BitVec.toNat_add] at below
    exact Nat.le_of_lt_succ (below.trans_le (Nat.mod_le _ _))
  rw [outByte_appendByte, outByte_appendByte, same.op]
  split_ifs with new
  · rfl
  · exact same.output a (Nat.lt_of_le_of_ne le new)

/-- Appending a list of bytes keeps two engines alike (R52). -/
theorem SameRun.appendBytes (bs : List Byte) :
    SameRun (appendBytes bs s) (appendBytes bs t) := by
  induction bs generalizing s t with
  | nil => exact same
  | cons b bs ih => exact ih (same.appendByte b)

/-- The copy loop keeps two engines alike, since its source byte lies below `op` in every iteration
(R178). -/
theorem SameRun.copyBack {d n : Nat} (positive : 1 ≤ d) (reach : d ≤ s.op.toNat)
    (hn : s.op.toNat + n < 2 ^ 32) : SameRun (copyBack d n s) (copyBack d n t) := by
  induction n generalizing s t with
  | zero => exact same
  | succ n ih =>
    have source : outByte t (t.op.toNat - d) = outByte s (s.op.toNat - d) := by
      rw [same.op, same.output _ (by omega)]
    have hop : (Machine.appendByte (outByte s (s.op.toNat - d)) s).op.toNat = s.op.toNat + 1 :=
      appendByte_op_toNat (by omega)
    rw [Machine.copyBack, Machine.copyBack, source]
    exact ih (same.appendByte _) (by omega) (by omega)

/-- They are alike after a literal or a pattern: the capacity decides alike (R203). -/
theorem SameRun.emitUnit (bs : List Byte) : SameRun (emitUnit bs s) (emitUnit bs t) := by
  unfold Machine.emitUnit
  rw [same.op, same.outCap]
  split_ifs
  · exact same.enterFault _
  · exact (same.appendBytes bs).completeUnit 1

/-- They are alike after a back-reference: the three checks decide alike (R207). -/
theorem SameRun.copyUnit {d : Nat} (len : Nat) (valid : s.cfg.valid) (positive : 1 ≤ d) :
    SameRun (copyUnit len d s) (copyUnit len d t) := by
  unfold Machine.copyUnit
  rw [same.op, same.outCap, same.ip, same.inLen]
  split_ifs with truncated underflow overflow
  · exact same.enterFault _
  · exact same.enterFault _
  · exact same.enterFault _
  · exact (same.copyBack positive (Nat.not_lt.1 underflow)
      (lt_two_pow_of_le_outCap valid (Nat.not_lt.1 overflow))).completeUnit 2

/-- They are alike after an arithmetic pattern: its bytes depend on the nibble order alone (R160).
-/
theorem SameRun.emitPattern (idx : Nat) (l : Nibble) :
    SameRun (emitPattern idx l s) (emitPattern idx l t) := by
  unfold Machine.emitPattern
  rw [same.nibbleOrder]
  exact same.emitUnit _

/-- Every unit answers in both and keeps two engines alike. -/
theorem SameRun.exec {i : Instr} {s' : State} (valid : s.cfg.valid) (h : exec i s = .next s') :
    ∃ t', Machine.exec i t = .next t' ∧ SameRun s' t' := by
  cases i with
  | cmd c => cases h; exact ⟨_, rfl, same.command c⟩
  | lit d => cases h; exact ⟨_, rfl, same.emitUnit _⟩
  | pat0 _ l => cases h; exact ⟨_, rfl, same.emitUnit _⟩
  | bref h l o => cases h; exact ⟨_, rfl, same.copyUnit _ valid (one_le_distance l o)⟩
  | _ => cases h; exact ⟨_, rfl, same.emitPattern _ _⟩

/-- An engine step keeps two engines alike: the decoder reads the same unit in both. -/
theorem SameRun.engineStep {s' : State} (valid : s.cfg.valid) (h : engineStep s = .next s') :
    ∃ t', Machine.engineStep t = .next t' ∧ SameRun s' t' := by
  obtain ⟨inside, found⟩ := engineStep_inv h
  obtain ⟨passed, -⟩ := payloadInside_iff.1 inside
  have inside' : payloadInside t = true :=
    payloadInside_iff.2 ⟨by rwa [same.ip, same.inLen], same.fits.2⟩
  rw [← same.cmd, ← same.mask, ← same.flags, ← same.payloadBytes] at found
  rcases found with ⟨i, left, unit, answer⟩ | ⟨stop, none, rfl⟩
  · rw [engineStep_of_unit inside' unit]
    exact same.exec valid answer
  · refine ⟨_, engineStep_of_decode_error inside' none, ?_⟩
    cases stop with
    | noByte => exact same.endRun
    | truncatedBackref => exact same.enterFault _

/-- A step of the machine keeps two engines alike, and the parameters with them. -/
theorem SameRun.step {s' : State} (valid : s.cfg.valid) (h : step s = .next s') :
    ∃ t', Machine.step t = .next t' ∧ SameRun s' t' ∧ s'.cfg = s.cfg := by
  obtain ⟨noMove, noMove'⟩ := same.moves
  by_cases running : s.phase = .run
  · have turn : EngineTurn s := ⟨noMove, running⟩
    have turn' : EngineTurn t := ⟨noMove', same.phase.trans running⟩
    obtain ⟨-, -, -, -, -, cfg, -⟩ := engineNeverWritesItsInputs s s' turn h
    rw [step_of_engineTurn turn] at h
    obtain ⟨t', answer, alike⟩ := same.engineStep valid h
    exact ⟨t', (step_of_engineTurn turn').trans answer, alike, cfg⟩
  · rw [(quiescentOutsideRun s running).1 noMove] at h
    cases h
    exact ⟨t, (quiescentOutsideRun t fun h => running (same.phase.symm.trans h)).1 noMove', same,
      rfl⟩

/-- Any number of steps keeps two engines alike. -/
theorem SameRun.runFor {k : Nat} {s' : State} (valid : s.cfg.valid) (h : runFor k s = .next s') :
    ∃ t', Machine.runFor k t = .next t' ∧ SameRun s' t' := by
  induction k generalizing s t with
  | zero => cases h; exact ⟨t, rfl, same⟩
  | succ k ih =>
    obtain ⟨u, first, rest⟩ := runFor_inv h
    obtain ⟨v, answer, alike, cfg⟩ := same.step valid first
    rw [runFor_of_next k answer]
    exact ih alike (cfg ▸ valid) rest

/-- Two engines alike are observed alike: the output bytes below `op` are the same (R19). -/
theorem SameRun.observe : observe t = observe s := by
  have output : outputBytes t = outputBytes s := by
    rw [outputBytes, outputBytes, same.op]
    exact List.map_congr_left fun a below => same.output a (List.mem_range.1 below)
  unfold Machine.observe
  rw [same.phase, same.cause, same.faultIp, same.ip, same.op, same.lenMatch, output]

end

/-- Settles O34: every step keeps two engines alike, and engines alike are observed alike. -/
theorem runDependsOnlyOnItsInputs : Obligations.RunDependsOnlyOnItsInputs := by
  intro s t k s' valid same h
  obtain ⟨t', answer, alike⟩ := same.runFor valid h
  exact ⟨t', answer, alike.observe⟩

end Sys2Proof.Machine
end

section
/-! What stands around the engine: the table search over all nibbles (R141), the frame built to the
layout of R90, and several engines on one platform (R67, R221). -/

namespace Sys2Proof.Machine

/-! ### The nibbles no table holds -/

/-- A number below 16 whose nibble the table holds is the value of one of its nine entries (R141).
-/
theorem mem_entries_of_lookup {t : Table} {n : Nat} (nibble : n < 16)
    (held : (lookup t (BitVec.ofNat 4 n)).isSome) :
    n ∈ t.toList.map BitVec.toNat := by
  obtain ⟨i, found⟩ := Option.isSome_iff_exists.1 held
  refine List.mem_map.2 ⟨t[i], Vector.mem_toList_iff.2 (Vector.getElem_mem i.isLt), ?_⟩
  rw [(lookup_eq_some_iff.1 found).1, BitVec.toNat_setWidth_of_le (by decide), BitVec.toNat_ofNat]
  exact Nat.mod_eq_of_lt nibble

/-- A table holds at most nine of the numbers below 16, since it has nine entries. -/
theorem held_nibbles_le_nine (t : Table) :
    ((List.range 16).filter fun n => (lookup t (BitVec.ofNat 4 n)).isSome).length ≤ 9 := by
  have distinct := List.nodup_range.filter (l := List.range 16)
    fun n => (lookup t (BitVec.ofNat 4 n)).isSome
  have among : ((List.range 16).filter fun n => (lookup t (BitVec.ofNat 4 n)).isSome) ⊆
      t.toList.map BitVec.toNat := by
    intro n hn
    obtain ⟨below, held⟩ := List.mem_filter.1 hn
    exact mem_entries_of_lookup (List.mem_range.1 below) held
  simpa using (distinct.subperm among).length_le

/-- Settles O51: the sixteen numbers are those the table holds, at most nine, and the others. -/
theorem atLeastSevenNibblesSelectBackref : Obligations.AtLeastSevenNibblesSelectBackref := by
  intro t
  have split := List.length_eq_length_filter_add (l := List.range 16)
    fun n => (lookup t (BitVec.ofNat 4 n)).isNone
  simp only [Option.not_isNone, List.length_range] at split
  have held := held_nibbles_le_nine t
  omega

/-! ### A frame built and parsed -/

/-- A table is the list of its nine entries. -/
theorem table_toList (t : Table) :
    t.toList = [t[0], t[1], t[2], t[3], t[4], t[5], t[6], t[7], t[8]] := by
  refine List.ext_getElem (by simp) fun i hi _ => ?_
  have : i < 9 := by simpa using hi
  interval_cases i <;> rfl

/-- The bytes of a frame by their place: the magic, `total_length`, the table,
`decompressed_length`, and what comes after the header (R90). -/
def layout (t : Table) (tl : BitVec 16) (e : Word) (rest : List Byte) : List Byte :=
  0x50 :: 0x4B :: 0x44 :: 0x50 :: 0x58 :: tl.extractLsb' 0 8 :: tl.extractLsb' 8 8 ::
    t[0] :: t[1] :: t[2] :: t[3] :: t[4] :: t[5] :: t[6] :: t[7] :: t[8] ::
    e.extractLsb' 0 8 :: e.extractLsb' 8 8 :: e.extractLsb' 16 8 :: e.extractLsb' 24 8 :: rest

/-- A built frame with trailing bytes has this layout. -/
theorem buildFrame_append (t : Table) (p : List Byte) (e : Word) (extra : List Byte) :
    buildFrame t p e ++ extra =
      layout t (BitVec.ofNat 16 (20 + p.length)) e (p ++ extra) := by
  simp [buildFrame, frameMagic, headerSize, table_toList, layout]

section
variable (t : Table) (tl : BitVec 16) (e : Word) (rest : List Byte)

/-- Bytes 5 and 6 give `total_length` (R92). -/
theorem totalLength_layout : totalLength (layout t tl e rest) = tl.toNat := by
  have bytes : totalLength (layout t tl e rest) =
      (tl.extractLsb' 0 8).toNat + 256 * (tl.extractLsb' 8 8).toNat := totalLength_eq _
  have := tl.isLt
  rw [bytes, BitVec.extractLsb'_toNat, BitVec.extractLsb'_toNat, Nat.shiftRight_eq_div_pow,
    Nat.shiftRight_eq_div_pow]
  omega

/-- Bytes 7 to 15 give the table (R95). -/
theorem frameTable_layout : frameTable (layout t tl e rest) = t :=
  Vector.toList_inj.1 (table_toList t).symm

/-- Bytes 16 to 19 give `decompressed_length` (R94). -/
theorem decompressedLength_layout : decompressedLength (layout t tl e rest) = e := by
  have bytes : (decompressedLength (layout t tl e rest)).toNat =
      (e.extractLsb' 0 8).toNat + 256 * (e.extractLsb' 8 8).toNat +
        65536 * (e.extractLsb' 16 8).toNat + 16777216 * (e.extractLsb' 24 8).toNat :=
    decompressedLength_toNat _
  have := e.isLt
  refine BitVec.eq_of_toNat_eq (bytes.trans ?_)
  simp only [BitVec.extractLsb'_toNat, Nat.shiftRight_eq_div_pow]
  omega

/-- The bytes after the header, up to `total_length`, give the payload (R93). -/
theorem framePayload_layout :
    framePayload (layout t tl e rest) = rest.take (tl.toNat - 20) := by
  rw [framePayload, totalLength_layout]
  rfl

/-- With the payload whole the parse finds a frame (R96). -/
theorem parseFrame_layout (header : 20 ≤ tl.toNat) (whole : tl.toNat ≤ 20 + rest.length) :
    parseFrame (layout t tl e rest) = .frame t (rest.take (tl.toNat - 20)) e := by
  have length : (layout t tl e rest).length = 20 + rest.length := Nat.add_comm rest.length 20
  rw [parseFrame, if_neg (not_notCompressed_of_magic rfl), length, totalLength_layout, headerSize,
    if_neg (by omega), if_neg (by omega), if_neg (by omega), frameTable_layout,
    framePayload_layout, decompressedLength_layout]

end

/-- Settles O50: a built frame has the layout, its `total_length` does not wrap, and it covers the
payload and none of the trailing bytes. -/
theorem parseReadsBackBuiltFrame : Obligations.ParseReadsBackBuiltFrame := by
  intro t p e extra short
  have total : (BitVec.ofNat 16 (20 + p.length)).toNat = 20 + p.length := by
    rw [BitVec.toNat_ofNat, Nat.mod_eq_of_lt (by omega)]
  rw [buildFrame_append, parseFrame_layout _ _ _ _ (by omega)
    (by rw [total, List.length_append]; omega), total, Nat.add_sub_cancel_left, List.take_left]

/-! ### Several engines -/

/-- No step changes an engine's number (log entry 12). -/
theorem step_engineId {s t : State} (h : step s = .next t) : t.engineId = s.engineId := by
  rcases step_next h with ⟨rest, -, e⟩ | ⟨a, rest, e⟩ | ⟨-, rest, seen, rfl⟩
  · obtain ⟨-, -, -, -, -, -, -, -, -, -, number, -⟩ := (engineResult_of_engineStep e).keeps
    exact number
  · exact (hostAccess_keeps e).2.1
  · rfl

/-- Everything a platform's step can be: nothing where there is no engine `k`, or the step of engine
`k` (R221). -/
theorem platformStep_next {k : Nat} {p q : Platform} (h : platformStep k p = .next q) :
    (p[k]? = none ∧ q = p) ∨
    ∃ s t, p[k]? = some s ∧ step s = .next t ∧ q = p.set k t := by
  unfold platformStep at h
  cases hk : p[k]? with
  | none => rw [hk] at h; cases h; exact .inl ⟨rfl, rfl⟩
  | some s =>
    rw [hk] at h
    cases hs : step s with
    | next t => simp only [hs] at h; cases h; exact .inr ⟨s, t, rfl, hs, rfl⟩
    | fault r => simp only [hs] at h; cases h
    | refused r => simp only [hs] at h; cases h

/-- After power-up the engines have different numbers (log entry 12). -/
theorem platformReset_engineIds (c : Params) (n : Nat) :
    ((platformReset c n).map State.engineId).Nodup := by
  have numbers : (platformReset c n).map State.engineId = List.range n := by
    rw [platformReset, List.map_map]
    exact List.map_id _
  rw [numbers]
  exact List.nodup_range

/-- Settles O55: the step of engine `k` replaces that engine alone, by one of the same number. -/
theorem instancesShareNothing : Obligations.InstancesShareNothing := by
  intro k p q h
  rcases platformStep_next h with ⟨absent, rfl⟩ | ⟨s, t, present, stepped, rfl⟩
  · exact ⟨rfl, fun _ _ => rfl, fun s present => by simp [absent] at present, rfl,
      platformReset_engineIds⟩
  · obtain ⟨inside, value⟩ := List.getElem?_eq_some_iff.1 present
    refine ⟨List.length_set, fun j other => List.getElem?_set_ne other.symm, fun u hu => ?own,
      ?numbers, platformReset_engineIds⟩
    case own =>
      cases present.symm.trans hu
      exact ⟨t, stepped, List.getElem?_set_self inside⟩
    case numbers =>
      rw [List.map_set, step_engineId stepped, ← value, ← List.getElem_map State.engineId,
        List.set_getElem_self]
      simpa using inside

end Sys2Proof.Machine
end
